-- ==== Sys2Proof/Word.lean ====
section
/-! DEFINITION. The two word types of the machine (spec 00_scope.md R3, R7). -/

namespace Sys2Proof

/-- A byte: 8 bits, arithmetic modulo 256 (R3). -/
abbrev Byte := BitVec 8

/-- A bus address: 16 bits (R3). Address arithmetic is modulo 65536 (R11, the spec's decision D2; log 2). -/
abbrev Address := BitVec 16

end Sys2Proof
end

