-- ==== Sys2Proof/Config.lean ====
section
/-! DEFINITION. What is fixed when the machine is built and is no part of its state (spec 00_scope.md R3, R4;
10_state.md R21): the names of the four instruction behaviours and the parameters. No value is left free:
93_implementation_defined.md has no "any value" entry. -/

namespace Sys2Proof

/-- The four instruction behaviours the instruction table maps opcodes to (R2, R66), without an operand:
what the current-instruction latch `cur` holds (R17). -/
inductive Operation
  | loadDirect
  | storeDirect
  | addDirect
  | branchIfZeroSet
  deriving DecidableEq, Repr

/-- `RAM_BASE` (R3): the RAM device's base offset. -/
def Config.ramBase : Address := 0x0000

/-- The default of the open parameter `OUT_BASE` (R4; the spec's decision D1, DESIGN CHOICE, log 1). -/
def Config.defaultOutBase : Address := 0xF000

/-- `INSTR_SIZE` (R3, R65): every instruction is three bytes long. -/
def Config.instrSize : Nat := 3

/-- Ticks from idle to completion, the idle tick counted (R66, R175; conflicts C1 and C2). -/
def Config.ticksFromIdle : Operation → Nat
  | .loadDirect => 5
  | .storeDirect => 5
  | .addDirect => 6
  | .branchIfZeroSet => 5

end Sys2Proof
end

