-- ==== Sys2Proof/Syntax.lean ====
section
/-! DEFINITION. The instructions, one constructor per row of spec/opcode_table.json. -/

namespace Sys2Proof

/-- An instruction with its one operand, the 16-bit direct address `a16` (R60, R63, R66, R102). -/
inductive Instr
  | loadDirect (a16 : Address)
  | storeDirect (a16 : Address)
  | addDirect (a16 : Address)
  | branchIfZeroSet (a16 : Address)
  deriving DecidableEq, Repr

/-- The behaviour an instruction names, which the fetch tick latches in `cur` (R17). -/
def Instr.operation : Instr → Operation
  | .loadDirect _ => .loadDirect
  | .storeDirect _ => .storeDirect
  | .addDirect _ => .addDirect
  | .branchIfZeroSet _ => .branchIfZeroSet

/-- The direct address of an instruction (R63). -/
def Instr.operand : Instr → Address
  | .loadDirect a16 => a16
  | .storeDirect a16 => a16
  | .addDirect a16 => a16
  | .branchIfZeroSet a16 => a16

/-- The instruction of a behaviour and a direct address (R60: one format for all four). -/
def Operation.instr : Operation → Address → Instr
  | .loadDirect, a16 => .loadDirect a16
  | .storeDirect, a16 => .storeDirect a16
  | .addDirect, a16 => .addDirect a16
  | .branchIfZeroSet, a16 => .branchIfZeroSet a16

end Sys2Proof
end

