-- ==== Sys2Proof/WellFormed.lean ====
section
/-! DEFINITION. The checks on instructions, on the parameter `OUT_BASE` and on the sequencer's pair. -/

namespace Sys2Proof

/-- Every operand value is legal with every instruction (R63, R68), so no term of `Instr` is ill-formed. -/
def Instr.wellFormed : Instr → Bool
  | .loadDirect _ => true
  | .storeDirect _ => true
  | .addDirect _ => true
  | .branchIfZeroSet _ => true

/-- A 24-bit word view `W` (R61) is an instruction exactly when its low byte is 0x01 to 0x04 (R68). -/
def legalWord (w : BitVec 24) : Bool :=
  let opcode := w.setWidth 8
  opcode == 0x01 || opcode == 0x02 || opcode == 0x03 || opcode == 0x04

/-- The legal range of `OUT_BASE`: 0x0001 to 0xFFFF (R4). It keeps the bus list strictly descending (R35). -/
def legalOutBase (b : Address) : Bool :=
  b != 0

/-- The pairs (`tc`, `cur`) that R23 lists; every other pair has no successor (log 10). -/
def legalSequencer (tc : Nat) (cur : Option Operation) : Bool :=
  match cur with
  | none => decide (tc ≤ 1)
  | some .addDirect => decide (tc ≤ 5)
  | some .loadDirect => decide (tc ≤ 4)
  | some .storeDirect => decide (tc ≤ 4)
  | some .branchIfZeroSet => decide (tc ≤ 4)

end Sys2Proof
end

