-- ==== Sys2Proof/Decode.lean ====
section
/-! DEFINITION. The instruction table, the decoder and, after it, the encoder (spec 30_encoding.md). -/

namespace Sys2Proof

/-- The direct address of the two operand bytes: `lo | (hi << 8)`, little-endian (R42, R63). -/
def directAddress (lo hi : Byte) : Address :=
  lo.setWidth 16 ||| (hi.setWidth 16 <<< 8)

/-- Bits 7 to 0 of an address, the instruction's byte 1 (R60). -/
def lowByte (a : Address) : Byte :=
  a.setWidth 8

/-- Bits 15 to 8 of an address, the instruction's byte 2 (R60). -/
def highByte (a : Address) : Byte :=
  (a >>> 8).setWidth 8

/-- The opcode byte of each behaviour (R66). -/
def opcodeOf : Operation → Byte
  | .loadDirect => 0x01
  | .storeDirect => 0x02
  | .addDirect => 0x03
  | .branchIfZeroSet => 0x04

/-- The instruction table's lookup of an opcode byte, which the fetch tick does (R64, R66, R82);
`none` for the 252 illegal opcodes (R67). -/
def lookupOpcode (b : Byte) : Option Operation :=
  if b = 0x01 then some .loadDirect
  else if b = 0x02 then some .storeDirect
  else if b = 0x03 then some .addDirect
  else if b = 0x04 then some .branchIfZeroSet
  else none

/-- Why bytes are no instruction: an illegal opcode (R67), or fewer bytes than the instruction has.
The second is a decoder's word only (log 14): the hardware reads the operand bytes on later ticks (R64). -/
inductive DecodeError
  | unknownOpcode (b : Byte)
  | truncated (available : Nat)
  deriving DecidableEq, Repr

/-- The instruction at the head of a list of bytes, with the bytes after it. The opcode is judged before any
operand byte is looked at (R64). -/
def decode : List Byte → Except DecodeError (Instr × List Byte)
  | [] => .error (.truncated 0)
  | opcode :: operands =>
    match lookupOpcode opcode with
    | none => .error (.unknownOpcode opcode)
    | some op =>
      match operands with
      | lo :: hi :: rest => .ok (op.instr (directAddress lo hi), rest)
      | [_] => .error (.truncated 2)
      | [] => .error (.truncated 1)

/-- The three bytes of a table word in memory order: byte 0 is `W[7:0]` (R61). Bits from `nbits` on are 0. -/
def wordBytes (nbits w : Nat) : List Byte :=
  let v := w % 2 ^ nbits
  [BitVec.ofNat 8 v, BitVec.ofNat 8 (v / 256), BitVec.ofNat 8 (v / 65536)]

/-- The instruction the decoder reads from a table word of `nbits` bits; `none` where it refuses. -/
def decodeTableWord (nbits w : Nat) : Option Instr :=
  match decode (wordBytes nbits w) with
  | .ok (i, _) => some i
  | .error _ => none

/-- A row of spec/opcode_table.json: `W` selects it when `W & mask = pattern` (R61). -/
structure TableRow where
  operation : Operation
  mask : BitVec 24
  pattern : BitVec 24
  deriving DecidableEq, Repr

/-- The four rows of spec/opcode_table.json, in its order. -/
def opcodeTable : List TableRow :=
  [⟨.loadDirect, 0x0000FF, 0x000001⟩, ⟨.storeDirect, 0x0000FF, 0x000002⟩,
   ⟨.addDirect, 0x0000FF, 0x000003⟩, ⟨.branchIfZeroSet, 0x0000FF, 0x000004⟩]

/-- The rows a word selects (R61). -/
def selectedRows (w : BitVec 24) : List TableRow :=
  opcodeTable.filter fun row => w &&& row.mask == row.pattern

/-- The three bytes of an instruction in memory order (R60). -/
def encode (i : Instr) : List Byte :=
  [opcodeOf i.operation, lowByte i.operand, highByte i.operand]

end Sys2Proof
end

