-- ==== Sys2Proof/Machine/State.lean ====
section
/-! DEFINITION. The machine's state as plain data (spec 10_state.md), its fatal errors and refusals, and reset. -/

namespace Sys2Proof.Machine

/-- The direction of a bus access, in the information of `RamOutOfBounds` (R130, R133). -/
inductive Direction
  | read
  | write
  deriving DecidableEq, Repr

/-- The fatal errors (R130), which the fault latch `State.fault` holds (R18). The spec describes the state a
fatal error leaves (R136, its decision D5), so a tick that raises one answers a NEXT state with the latch set and
no step answers `.fault` (log 5). -/
inductive Fault
  /-- Raised by the fetch tick: the byte `b` read at `pc` is no opcode (R67, R131). Safe: the spec's own error. -/
  | unknownOpcode (pc : Address) (b : Byte)
  /-- Raised by the bus when no device covers `a` (R41, R132). Safe; unreachable with RAM at base offset 0 (log 13). -/
  | unmappedAddress (a : Address)
  /-- Raised by the RAM device for an access beyond the loaded image (R38, R133). Safe: the spec's decision D3 (log 3). -/
  | ramOutOfBounds (a : Address) (d : Direction)
  /-- Raised by the character-output device for every read (R40, R134). Safe: the spec's decision D4 (log 4). -/
  | outputDeviceRead (a : Address)
  deriving DecidableEq, Repr

/-- The host actions the model can refuse (log 7). -/
inductive HostAction
  | load
  | preset
  deriving DecidableEq, Repr

/-- Why the model gives no meaning. -/
inductive Refusal
  /-- Raised by `exec` for an instruction with no meaning yet; none is left. Safe. -/
  | notModelled (mnemonic : String)
  /-- Raised by a tick in a sequencer state that no rule reaches and that has no successor (R23; U7; log 10). Safe. -/
  | noSuccessor (tc : Nat) (cur : Option Operation)
  /-- Raised by a host action outside the launch sequence (R163, R165; U8; log 7); no step raises it. Safe. -/
  | hostAction (what : HostAction)
  deriving DecidableEq, Repr

/-- The RAM device's storage: its bytes with their local indices, which are 0 to L-1 in rising order
(`Memory.wf`). An index that is not listed reads as no value: RAM is wholly the image (R38, R49; log 12). -/
abbrev Memory := List Host.Cell

/-- The whole state of the machine (10_state.md, opening tuple). -/
structure State where
  /-- The program counter (R10). -/
  pc : Address
  /-- The accumulator (R12). -/
  acc : Byte
  /-- The scratch address register (R13). -/
  index : Address
  /-- The scratch byte of AddDirect (R14). -/
  buffer : Byte
  /-- The tick counter (R16). -/
  tc : Nat
  /-- The current instruction, latched by the fetch tick (R17). -/
  cur : Option Operation
  /-- The RAM device's storage (R19, R38). -/
  ram : Memory
  /-- The character-output device's sequence, oldest first (R19, R39). -/
  out : List Byte
  /-- The fault latch (R18, R136). -/
  fault : Option Fault
  /-- The model's own field: the open parameter `OUT_BASE` (R4, R21), which no step writes (log 1). -/
  outBase : Address
  deriving DecidableEq, Repr

/-- The machine right after construction (R22, R160): before any `load` the RAM is empty. -/
def State.reset : State where
  pc := 0x0000
  acc := 0x00
  index := 0x0000
  buffer := 0x00
  tc := 0
  cur := none
  ram := []
  out := []
  fault := none
  outBase := Config.defaultOutBase

/-- The kinds of device on the bus (R2, R32). -/
inductive DeviceKind
  | charOutput
  | ram
  deriving DecidableEq, Repr

/-- A device as the bus sees it: its kind and its base offset (R32). -/
structure Device where
  kind : DeviceKind
  baseOffset : Address
  deriving DecidableEq, Repr

/-- The bus operation a tick issues, at most one (R5, R88; the spec's decision D10, log 9). -/
inductive BusOp
  | none
  | read (a : Address)
  | write (a : Address) (v : Byte)
  deriving DecidableEq, Repr

end Sys2Proof.Machine
end

