-- ==== Sys2Proof/Machine/Ops.lean ====
section
/-! DEFINITION. The named operations over memory, the bus and the registers, and the raising of a fatal error. -/

namespace Sys2Proof.Machine

/-- The answer of one tick. -/
abbrev TickResult := Host.Outcome State Fault Refusal

/-! ## The RAM device's storage -/

/-- The byte at an index of the storage; `none` beyond it (log 12). -/
def Memory.read : Memory → Nat → Option Byte
  | [], _ => none
  | (k, b) :: rest, i => if k = i then some b else Memory.read rest i

/-- The storage with one byte replaced. An index beyond the storage changes nothing: RAM never grows (R38). -/
def Memory.write : Memory → Nat → Byte → Memory
  | [], _, _ => []
  | (k, b) :: rest, i, v => if k = i then (k, v) :: rest else (k, b) :: Memory.write rest i v

/-- The bytes of an image as cells from index `n` on. -/
def Memory.cellsFrom : Nat → List Byte → Memory
  | _, [] => []
  | n, b :: rest => (n, b) :: Memory.cellsFrom (n + 1) rest

/-- The storage a loaded image makes: `RAM[i] = IMAGE[i]`, L = its length (R49). -/
def Memory.ofImage (image : List Byte) : Memory :=
  Memory.cellsFrom 0 image

/-- The bytes of the storage in index order. -/
def Memory.bytes (m : Memory) : List Byte :=
  m.map Prod.snd

/-- The canonical form: the indices are 0, 1, …, L-1 in this order (so strictly rising), each listed. -/
abbrev Memory.wf (m : Memory) : Prop :=
  m.map Prod.fst = List.range m.length

/-! ## Bus and devices -/

/-- The bus's device list, in strictly descending order of base offset when `OUT_BASE` is legal (R35). -/
def State.devices (s : State) : List Device :=
  [⟨.charOutput, s.outBase⟩, ⟨.ram, Config.ramBase⟩]

/-- Arbitration: the first device, in list order, whose base offset is not above the address (R36). -/
def route (devices : List Device) (a : Address) : Option Device :=
  devices.find? fun d => decide (d.baseOffset ≤ a)

/-- The device's local index of a bus address: `address - baseOffset` (R38; conflict C3). -/
def Device.localIndex (d : Device) (a : Address) : Nat :=
  a.toNat - d.baseOffset.toNat

/-- A device's `read`: the output device has none (R40), RAM answers its byte or is out of bounds (R38). -/
def Device.read (d : Device) (a : Address) (s : State) : Except Fault Byte :=
  match d.kind with
  | .charOutput => .error (.outputDeviceRead a)
  | .ram =>
    match s.ram.read (d.localIndex a) with
    | some b => .ok b
    | none => .error (.ramOutOfBounds a .read)

/-- A device's `write`: the output device appends, whatever the address (R39); RAM replaces one byte or is
out of bounds (R38). -/
def Device.write (d : Device) (a : Address) (v : Byte) (s : State) : Except Fault State :=
  match d.kind with
  | .charOutput => .ok { s with out := s.out ++ [v] }
  | .ram =>
    match s.ram.read (d.localIndex a) with
    | some _ => .ok { s with ram := s.ram.write (d.localIndex a) v }
    | none => .error (.ramOutOfBounds a .write)

/-- A read through a bus with the given device list (R36, R41). -/
def busRead (devices : List Device) (a : Address) (s : State) : Except Fault Byte :=
  match route devices a with
  | none => .error (.unmappedAddress a)
  | some d => d.read a s

/-- A write through a bus with the given device list (R36, R41). -/
def busWrite (devices : List Device) (a : Address) (v : Byte) (s : State) : Except Fault State :=
  match route devices a with
  | none => .error (.unmappedAddress a)
  | some d => d.write a v s

/-- `MemRead(a, 1)` (R33). -/
def memRead (a : Address) (s : State) : Except Fault Byte :=
  busRead s.devices a s

/-- `MemWrite(a, 1, v)` (R34). -/
def memWrite (a : Address) (v : Byte) (s : State) : Except Fault State :=
  busWrite s.devices a v s

/-! ## Registers and the end of a tick -/

/-- The end of a tick that does not complete the instruction: the driver increments `tc` (R16, R85). -/
def State.advance (s : State) : State :=
  { s with tc := s.tc + 1 }

/-- The end of a completing tick: `pc` is written and `tc` returns to 0 in the same tick (R85). -/
def State.complete (target : Address) (s : State) : State :=
  { s with pc := target, tc := 0 }

/-- Taking a fatal error: the latch is set and the tick writes nothing else (R136, the spec's decision D5; log 5).
Nothing is saved elsewhere and no handler runs; there is no return from it (R140), so no operation beside this one. -/
def State.raise (e : Fault) (s : State) : State :=
  { s with fault := some e }

/-- A tick whose bus operation is `Read(a)`: it goes on with the byte, or raises the bus's error (R7, R33, R136). -/
def withRead (a : Address) (s : State) (go : Byte → TickResult) : TickResult :=
  match memRead a s with
  | .ok b => go b
  | .error e => .next (s.raise e)

/-- A tick whose bus operation is `Write(a, v)`: it goes on from the written state, or raises (R7, R34, R136). -/
def withWrite (a : Address) (v : Byte) (s : State) (go : State → TickResult) : TickResult :=
  match memWrite a v s with
  | .ok t => go t
  | .error e => .next (s.raise e)

end Sys2Proof.Machine
end

