-- ==== Sys2Proof/Machine/Operands.lean ====
section
/-! DEFINITION. The one operand form, the direct address (R102): its assembly over two ticks, the instruction's
byte addresses, and the addition of bytes. -/

namespace Sys2Proof.Machine

/-- The address of the low operand byte, `pc +_16 1` (R60, R83). -/
def lowByteAddress (pc : Address) : Address :=
  pc + 1

/-- The address of the high operand byte, `pc +_16 2` (R60, R84). -/
def highByteAddress (pc : Address) : Address :=
  pc + 2

/-- The sequential advance, `pc +_16 3` (R10, R65, R121). -/
def nextPc (pc : Address) : Address :=
  pc + BitVec.ofNat 16 Config.instrSize

/-- What tick 2 leaves in `index`: `zext_16(lo)`, its upper byte cleared (R83). -/
def assembleLow (lo : Byte) : Address :=
  lo.setWidth 16

/-- What tick 3 leaves in `index`: `index +_16 (hi << 8)` (R84; the wrap is the spec's decision D2, log 2). -/
def assembleHigh (index : Address) (hi : Byte) : Address :=
  index + (hi.setWidth 16 <<< 8)

/-- `acc +_8 buffer`: the sum modulo 256, its carry discarded (R112). -/
def addBytes (acc buffer : Byte) : Byte :=
  acc + buffer

end Sys2Proof.Machine
end

