-- ==== Sys2Proof/Machine/Flags.lean ====
section
/-! DEFINITION. The hardware has no flags and no instruction has a flag effect (R15). The one condition is the
test of the accumulator itself. -/

namespace Sys2Proof.Machine

/-- The condition of BranchIfZeroSet: `acc = 0x00`, a test of the value and of no stored flag (R15, R120). -/
def accIsZero (acc : Byte) : Bool :=
  acc == 0x00

end Sys2Proof.Machine
end

