-- ==== Sys2Proof/Machine/Add.lean ====
section
/-! DEFINITION. The own ticks of AddDirect (spec 42_add.md). -/

namespace Sys2Proof.Machine

/-- AddDirect's own ticks (R110, R111): tick 4 reads the operand into `buffer`, tick 5 adds and completes, with no
bus operation. At any other `tc` the instruction has no tick of its own (R23; log 10). -/
def execAddDirect (a16 : Address) (s : State) : TickResult :=
  if s.tc = 4 then
    withRead a16 s fun b => .next ({ s with buffer := b } : State).advance
  else if s.tc = 5 then
    .next (({ s with acc := addBytes s.acc s.buffer } : State).complete (nextPc s.pc))
  else .refused (.noSuccessor s.tc (some .addDirect))

end Sys2Proof.Machine
end

