-- ==== Sys2Proof/Machine/Branch.lean ====
section
/-! DEFINITION. The own tick of BranchIfZeroSet (spec 43_branch.md). -/

namespace Sys2Proof.Machine

/-- BranchIfZeroSet's own tick (R120): tick 4 sets `pc` to the direct address when `acc` is zero and past the
instruction otherwise; no bus operation. At any other `tc` the instruction has no tick of its own (R23; log 10). -/
def execBranchIfZeroSet (a16 : Address) (s : State) : TickResult :=
  if s.tc = 4 then
    .next (s.complete (if accIsZero s.acc then a16 else nextPc s.pc))
  else .refused (.noSuccessor s.tc (some .branchIfZeroSet))

end Sys2Proof.Machine
end

