-- ==== Sys2Proof/Machine/LoadStore.lean ====
section
/-! DEFINITION. The own ticks of LoadDirect and StoreDirect (spec 41_load_store.md). -/

namespace Sys2Proof.Machine

/-- LoadDirect's own tick (R100): tick 4 loads `acc` from the direct address and completes. At any other `tc` the
instruction has no tick of its own (R23; log 10). -/
def execLoadDirect (a16 : Address) (s : State) : TickResult :=
  if s.tc = 4 then
    withRead a16 s fun b => .next (({ s with acc := b } : State).complete (nextPc s.pc))
  else .refused (.noSuccessor s.tc (some .loadDirect))

/-- StoreDirect's own tick (R101): tick 4 writes `acc` to the direct address, in RAM or to the output device, and
completes. At any other `tc` the instruction has no tick of its own (R23; log 10). -/
def execStoreDirect (a16 : Address) (s : State) : TickResult :=
  if s.tc = 4 then
    withWrite a16 s.acc s fun t => .next (t.complete (nextPc s.pc))
  else .refused (.noSuccessor s.tc (some .storeDirect))

end Sys2Proof.Machine
end

