-- ==== Sys2Proof/Machine/Dispatch.lean ====
section
/-! DEFINITION. The dispatch to an instruction's own ticks, `Execute` of R80 and R85. -/

namespace Sys2Proof.Machine

-- An instruction's own tick at the state's tc (R85); log 11 says how the operand comes from index.
def exec (i : Instr) (s : State) : Host.Outcome State Fault Refusal :=
  match i with
  | .loadDirect a16 => Sys2Proof.Machine.execLoadDirect a16 s
  | .storeDirect a16 => Sys2Proof.Machine.execStoreDirect a16 s
  | .addDirect a16 => Sys2Proof.Machine.execAddDirect a16 s
  | .branchIfZeroSet a16 => Sys2Proof.Machine.execBranchIfZeroSet a16 s

end Sys2Proof.Machine
end

