-- ==== Sys2Proof/Machine/TickEngine.lean ====
section
/-! DEFINITION. The tick sequencer (spec 40_tick_engine.md): idle, fetch and decode, the two address ticks, the
delegation to the current instruction, the bus operation of each tick, and the placing of a word to be run. -/

namespace Sys2Proof.Machine

/-- Tick 0, idle (R81). -/
def idleTick (s : State) : TickResult :=
  .next s.advance

/-- Tick 1, fetch and decode (R82): the bus read's own error comes before `UnknownOpcode`; `pc` is not changed. -/
def fetchTick (s : State) : TickResult :=
  withRead s.pc s fun b =>
    match lookupOpcode b with
    | none => .next (s.raise (.unknownOpcode s.pc b))
    | some op => .next ({ s with cur := some op } : State).advance

/-- Tick 2, address low byte (R83). -/
def addrLowTick (s : State) : TickResult :=
  withRead (lowByteAddress s.pc) s fun lo =>
    .next ({ s with index := assembleLow lo } : State).advance

/-- Tick 3, address high byte (R84). -/
def addrHighTick (s : State) : TickResult :=
  withRead (highByteAddress s.pc) s fun hi =>
    .next ({ s with index := assembleHigh s.index hi } : State).advance

/-- Ticks from 2 on, with the current instruction (R83 to R85): from tick 4 on, the current instruction's own tick
with the direct address that `index` holds. -/
def executeTick (op : Operation) (s : State) : TickResult :=
  if s.tc = 2 then addrLowTick s
  else if s.tc = 3 then addrHighTick s
  else exec (op.instr s.index) s

/-- One tick (R80). A halted machine stays as it is (R136, log 5). A tick with `tc >= 2` and no current instruction
has no successor (R23; log 10). -/
def tick (s : State) : TickResult :=
  if s.fault ≠ none then .next s
  else if s.tc = 0 then idleTick s
  else if s.tc = 1 then fetchTick s
  else
    match s.cur with
    | none => .refused (.noSuccessor s.tc none)
    | some op => executeTick op s

/-- The bus operation of the tick about to be taken (R88); none when halted (R140). -/
def State.busOp (s : State) : BusOp :=
  if s.fault ≠ none ∨ s.tc = 0 then .none
  else if s.tc = 1 then .read s.pc
  else
    match s.cur with
    | none => .none
    | some op =>
      if s.tc = 2 then .read (lowByteAddress s.pc)
      else if s.tc = 3 then .read (highByteAddress s.pc)
      else if s.tc = 4 then
        match op with
        | .loadDirect => .read s.index
        | .storeDirect => .write s.index s.acc
        | .addDirect => .read s.index
        | .branchIfZeroSet => .none
      else .none

/-- What a bus operation does by itself: the state after it, with the byte a read answers (R5, R33, R34). -/
def BusOp.perform (op : BusOp) (s : State) : Except Fault (Option Byte × State) :=
  match op with
  | .none => .ok (Option.none, s)
  | .read a =>
    match memRead a s with
    | .ok b => .ok (some b, s)
    | .error e => .error e
  | .write a v =>
    match memWrite a v s with
    | .ok t => .ok (Option.none, t)
    | .error e => .error e

/-! ## Placing a word to be run -/

/-- Bytes written over an image from index `p` on; a gap before them is filled with zero bytes (R71's `.org`). -/
def overlay (image : List Byte) (p : Nat) (bytes : List Byte) : List Byte :=
  image.take p ++ List.replicate (p - image.length) 0 ++ bytes ++ image.drop (p + bytes.length)

/-- The state with a table word in RAM at `pc` and the sequencer at the fetch tick (log 11). -/
def State.placeWord (s : State) (nbits w : Nat) : State :=
  { s with ram := Memory.ofImage (overlay s.ram.bytes s.pc.toNat (wordBytes nbits w)), tc := 1 }

/-- The state after `n` ticks, staying where a tick is refused. -/
def ticksOf : Nat → State → State
  | 0, s => s
  | n + 1, s =>
    match tick s with
    | .next t => ticksOf n t
    | _ => s

/-- The fetch and the two address ticks taken, if they bring the instruction to its own tick 4; else the state itself,
whose next tick raises the error (log 11). -/
def State.prefetched (s : State) : State :=
  if (ticksOf 3 s).tc = 4 then ticksOf 3 s else s

end Sys2Proof.Machine
end

