-- ==== Sys2Proof/Machine/Step.lean ====
section
/-! DEFINITION. The step of the machine, one tick (R80), and the placing of a word for the next step to run. -/

namespace Sys2Proof.Machine

/-- One step is one tick: "it is the only step there is" (R80). -/
def step (s : State) : Host.Outcome State Fault Refusal :=
  tick s

/-- The state whose very next step runs the instruction of the table word: the word is in RAM at `pc`, and the ticks
before the instruction's own first tick have been taken by the machine's own tick function (log 11). -/
def State.withFetchWord (s : State) (nbits w : Nat) : State :=
  (s.placeWord nbits w).prefetched

end Sys2Proof.Machine
end

