-- ==== Sys2Proof/Machine/HostInterface.lean ====
section
/-! DEFINITION. What the host may do between ticks (spec 70_reset_and_hazards.md R160 to R168). -/

namespace Sys2Proof.Machine

/-- The data registers a host may preset, each to a value or not at all (R165). -/
structure Presets where
  pc : Option Address := none
  acc : Option Byte := none
  index : Option Address := none
  buffer : Option Byte := none
  deriving DecidableEq, Repr

/-- The effect of `load`: RAM becomes the image and nothing else changes (R49, R163). -/
def State.load (image : List Byte) (s : State) : State :=
  { s with ram := Memory.ofImage image }

/-- The effect of presets (R165). -/
def State.preset (p : Presets) (s : State) : State :=
  { s with
    pc := p.pc.getD s.pc
    acc := p.acc.getD s.acc
    index := p.index.getD s.index
    buffer := p.buffer.getD s.buffer }

/-- `Launch(IMAGE, presets)` (R168), with the parameter `OUT_BASE` (R4). -/
def launch (outBase : Address) (image : List Byte) (p : Presets) : State :=
  (({ State.reset with outBase := outBase } : State).load image).preset p

/-- `run(n)`, which is `tick(n)`: exactly `n` ticks (R86, R164). -/
def run (n : Nat) (s : State) : TickResult :=
  Host.Core.run Sys2Proof.core n s

/-! ## The launch sequence -/

/-- How far the launch sequence has come (R162): constructed and not yet loaded, loaded and not yet run, or run for at least
one tick. It is the host's own record and no state of the machine. -/
inductive LaunchPhase
  | constructed
  | loaded
  | started
  deriving DecidableEq, Repr

/-- The host with its machine: the launch sequence's phase beside the machine's state (log 7). -/
structure Session where
  phase : LaunchPhase
  machine : State
  deriving DecidableEq, Repr

/-- The answer of a host action. -/
abbrev SessionResult := Host.Outcome Session Fault Refusal

/-- Construction, which is the one reset (R160, R162 (1)), with the parameter `OUT_BASE` (R4). -/
def Session.construct (outBase : Address) : Session :=
  ⟨.constructed, { State.reset with outBase := outBase }⟩

/-- No tick can have been taken: `tc = 0`, `fault = none` (R165), and no fetch tick has latched an instruction, for `cur` is
never set back to none (R17, R82). -/
abbrev State.BeforeFirstTick (s : State) : Prop :=
  s.tc = 0 ∧ s.cur = none ∧ s.fault = none

/-- The launch sequence stands at the given phase, before the machine's first tick (R162). -/
abbrev Session.StandsAt (phase : LaunchPhase) (h : Session) : Prop :=
  h.phase = phase ∧ h.machine.BeforeFirstTick

/-- `load` as the host may use it (R162 (2), R163, U8; log 7): once, right after construction. -/
def hostLoad (image : List Byte) (h : Session) : SessionResult :=
  if h.StandsAt .constructed then .next ⟨.loaded, h.machine.load image⟩
  else .refused (.hostAction .load)

/-- Presets as the host may make them (R162 (3), R165, U8; log 7): after the `load` and before the first tick. -/
def hostPreset (p : Presets) (h : Session) : SessionResult :=
  if h.StandsAt .loaded then .next ⟨.loaded, h.machine.preset p⟩
  else .refused (.hostAction .preset)

/-- `run(n)` as the host may use it (R162 (4), R164, R167): at any time, and the first tick ends the launch sequence. -/
def hostRun (n : Nat) (h : Session) : SessionResult :=
  match run n h.machine with
  | .next t => .next ⟨if n = 0 then h.phase else .started, t⟩
  | .fault e => .fault e
  | .refused r => .refused r

/-- A call of the host (R5, R165). -/
inductive HostCall
  | load (image : List Byte)
  | preset (p : Presets)
  | run (n : Nat)
  deriving DecidableEq, Repr

/-- The answer to one call. -/
def hostCall (c : HostCall) (h : Session) : SessionResult :=
  match c with
  | .load image => hostLoad image h
  | .preset p => hostPreset p h
  | .run n => hostRun n h

/-- The answer to a list of calls, in order, which ends at the first one that is refused (U8). -/
def hostCalls : List HostCall → Session → SessionResult
  | [], h => .next h
  | c :: rest, h =>
    match hostCall c h with
    | .next k => hostCalls rest k
    | .fault e => .fault e
    | .refused r => .refused r

end Sys2Proof.Machine
end

