-- ==== Sys2Proof/Safety.lean ====
section
/-! DEFINITION. What counts as a good state and a good run, in the terms the statements use. -/

namespace Sys2Proof.Machine

/-- The machine is not halted by a fatal error (R18, R136). A halted state is never a successful one (R140). -/
abbrev State.Running (s : State) : Prop :=
  s.fault = none

/-- The well-formed states: RAM in canonical form, the sequencer in a pair that R23 lists, `OUT_BASE` legal (R4). -/
abbrev State.Wf (s : State) : Prop :=
  s.ram.wf ∧ legalSequencer s.tc s.cur = true ∧ legalOutBase s.outBase = true

/-- The registers of an instruction in flight agree with the instruction's bytes in memory: `cur` with the opcode at
`pc` from tick 2 on, `index` with the operand bytes read so far, `buffer` with AddDirect's operand (R10, R13, R14,
R17, R172). -/
def State.InFlight (s : State) : Prop :=
  (2 ≤ s.tc → ∃ b, memRead s.pc s = .ok b ∧ s.cur = lookupOpcode b ∧ s.cur ≠ none) ∧
  (s.tc = 3 → ∃ lo, memRead (lowByteAddress s.pc) s = .ok lo ∧ s.index = assembleLow lo) ∧
  (4 ≤ s.tc → ∃ lo hi, memRead (lowByteAddress s.pc) s = .ok lo ∧ memRead (highByteAddress s.pc) s = .ok hi ∧
    s.index = directAddress lo hi) ∧
  (s.tc = 5 → memRead s.index s = .ok s.buffer)

/-- A run of `n` ticks succeeds: it ends in a state that no fatal error has halted. -/
def SucceedsIn (n : Nat) (s t : State) : Prop :=
  run n s = .next t ∧ t.Running

/-- The three bytes at `pc` can be read and are the instruction `i` (R60, R64). -/
def State.HoldsInstr (s : State) (i : Instr) : Prop :=
  ∃ opcode lo hi, memRead s.pc s = .ok opcode ∧ memRead (lowByteAddress s.pc) s = .ok lo ∧
    memRead (highByteAddress s.pc) s = .ok hi ∧ decode [opcode, lo, hi] = .ok (i, [])

/-- The state just before the next instruction's idle tick, in a machine that is not halted. -/
abbrev State.Idle (s : State) : Prop :=
  s.Running ∧ s.tc = 0

/-- A state of the halt idiom's loop, at any of its ticks: running with `acc = 0` in a legal sequencer state, the registers in
flight in agreement with memory, and at `pc` a BranchIfZeroSet of `pc` itself (R123, R169). -/
def State.InHaltLoop (s : State) : Prop :=
  s.Running ∧ legalSequencer s.tc s.cur = true ∧ s.InFlight ∧ s.acc = 0x00 ∧ s.HoldsInstr (.branchIfZeroSet s.pc)

/-- The state in which the instruction `i`, fetched from an idle state `s`, is about to take its own first tick:
only the sequencer and `index` differ from `s` (R82 to R84). -/
def State.fetched (i : Instr) (s : State) : State :=
  { s with tc := 4, cur := some i.operation, index := i.operand }

end Sys2Proof.Machine
end

