-- ==== Sys2Proof/Certificates/Slice0/Obligations.lean ====
section
/-! DEFINITION. The statements for the provers. "D<n>" is a decision of spec/92_eei_decisions.md, which the spec marks as its
own; a statement that rests on one is derived and names its log entry. -/

open Sys2Proof Sys2Proof.Machine

/-! ## Encoding -/

/-- Decoding the encoding of any instruction gives it back, whatever bytes follow (R60, R63, R66). -/
def Obligations.DecodeAfterEncodeIsIdentity : Prop :=
  ∀ (i : Instr) (rest : List Byte), i.wellFormed = true → decode (encode i ++ rest) = .ok (i, rest)

/-- Bytes that decode are the encoding of what they decode to: each word has one meaning (R60, R63, R66). -/
def Obligations.EncodeAfterDecodeIsIdentity : Prop :=
  ∀ (bytes rest : List Byte) (i : Instr), decode bytes = .ok (i, rest) →
    bytes = encode i ++ rest ∧ i.wellFormed = true

/-- The word view (R61): a word decodes by its low byte, with its upper 16 bits as the direct address; it selects
exactly the row of the opcode table that names that operation; and exactly the words R68 counts are instructions. -/
def Obligations.TableWordsDecodeByTheirLowByte : Prop :=
  ∀ w : BitVec 24,
    decodeTableWord 24 w.toNat =
      (lookupOpcode (w.extractLsb' 0 8)).map (fun op => op.instr (w.extractLsb' 8 16)) ∧
    (selectedRows w).map TableRow.operation = (lookupOpcode (w.extractLsb' 0 8)).toList ∧
    ((decodeTableWord 24 w.toNat).isSome = true ↔ legalWord w = true)

/-- The instruction words of the source's four scenarios (R66; 95_test_vectors.md S1 to S4) decode to their
instructions, and two illegal words to none. -/
def Obligations.ScenarioWordsDecodeToTheirInstructions : Prop :=
  decodeTableWord 24 0x000501 = some (.loadDirect 0x0005) ∧
  decodeTableWord 24 0x000402 = some (.storeDirect 0x0004) ∧
  decodeTableWord 24 0x000303 = some (.addDirect 0x0003) ∧
  decodeTableWord 24 0x000F04 = some (.branchIfZeroSet 0x000F) ∧
  decodeTableWord 24 0xF12302 = some (.storeDirect 0xF123) ∧
  decodeTableWord 24 0x000000 = none ∧ decodeTableWord 24 0x000005 = none

/-- Every opcode byte but 0x01 to 0x04 is illegal (R67): the decoder refuses it whatever follows, and a fetch tick that
reads it latches `UnknownOpcode` and, by the spec's decisions D5 and D9 (log 5, log 8), writes nothing else. -/
def Obligations.IllegalOpcodesHaltAtTheFetchTick : Prop :=
  ∀ b : Byte, b ≠ 0x01 → b ≠ 0x02 → b ≠ 0x03 → b ≠ 0x04 →
    (∀ rest, decode (b :: rest) = .error (.unknownOpcode b)) ∧
    ∀ s : State, s.Running → s.tc = 1 → memRead s.pc s = .ok b →
      step s = .next { s with fault := some (.unknownOpcode s.pc b) }

/-! ## Operands and arithmetic -/

/-- The byte order of the direct address (R42): after ticks 2 and 3 `index` holds the byte at `pc + 1` as its bits 7 to 0
and the byte at `pc + 2` as its bits 15 to 8, for every byte pair, and the decoder reads the same address. -/
def Obligations.AddressTicksAssembleLittleEndian : Prop :=
  (∀ (s : State) (op : Operation) (lo hi : Byte),
    s.Running → s.tc = 2 → s.cur = some op → memRead (s.pc + 1) s = .ok lo → memRead (s.pc + 2) s = .ok hi →
    run 2 s = .next { s with index := BitVec.ofNat 16 (lo.toNat + 256 * hi.toNat), tc := 4 }) ∧
  ∀ lo hi : Byte, (directAddress lo hi).toNat = lo.toNat + 256 * hi.toNat

/-- The arithmetic laws (R112): byte addition is modulo 256, commutative, and the same for two's-complement numbers
(0xFF subtracts one). -/
def Obligations.ByteAdditionIsModulo256 : Prop :=
  ∀ x y : Byte, (addBytes x y).toNat = (x.toNat + y.toNat) % 256 ∧ addBytes x y = addBytes y x ∧
    addBytes x 0xFF = x - 1

/-! ## Bus and memory -/

/-- Arbitration on any strictly descending device list (R36): the device found is the covering one with the highest base
offset, its range ends below the next higher base offset, the access is delegated to it, and an address with no covering
device is the fatal error `UnmappedAddress`. -/
def Obligations.RouteFindsTheHighestCoveringDevice : Prop :=
  ∀ (ds : List Device) (a : Address), ds.Pairwise (fun d e => e.baseOffset < d.baseOffset) →
    (∀ d, route ds a = some d ↔
      d ∈ ds ∧ d.baseOffset ≤ a ∧ ∀ e ∈ ds, e.baseOffset ≤ a → e.baseOffset ≤ d.baseOffset) ∧
    (∀ d, route ds a = some d ↔
      d ∈ ds ∧ d.baseOffset ≤ a ∧ ∀ e ∈ ds, d.baseOffset < e.baseOffset → a < e.baseOffset) ∧
    (∀ d, route ds a = some d → ∀ s v, busRead ds a s = d.read a s ∧ busWrite ds a v s = d.write a v s) ∧
    ((∀ d ∈ ds, a < d.baseOffset) → ∀ s v,
      busRead ds a s = .error (.unmappedAddress a) ∧ busWrite ds a v s = .error (.unmappedAddress a))

/-- The device list (R35): output device at `OUT_BASE`, RAM at 0, strictly descending when `OUT_BASE` is legal, used by
every access, and the same after any run. -/
def Obligations.DeviceListIsDescendingAndFixed : Prop :=
  ∀ s : State,
    s.devices = [⟨.charOutput, s.outBase⟩, ⟨.ram, 0x0000⟩] ∧
    (legalOutBase s.outBase = true → s.devices.Pairwise (fun d e => e.baseOffset < d.baseOffset)) ∧
    (∀ a v, memRead a s = busRead s.devices a s ∧ memWrite a v s = busWrite s.devices a v s) ∧
    ∀ n t, run n s = .next t → t.devices = s.devices

/-- Routing in this hardware (R37): the output device from `OUT_BASE` up, 0xFFFF always there, RAM below, never both;
RAM storage at indices from `OUT_BASE` on is neither written nor seen through the bus. -/
def Obligations.BusSplitsAtOutBase : Prop :=
  ∀ s : State, legalOutBase s.outBase = true →
    (∀ a, route s.devices a = some ⟨.charOutput, s.outBase⟩ ↔ s.outBase ≤ a) ∧
    (∀ a, route s.devices a = some ⟨.ram, 0x0000⟩ ↔ a < s.outBase) ∧
    route s.devices 0xFFFF = some ⟨.charOutput, s.outBase⟩ ∧
    (∀ a v t, memWrite a v s = .ok t → ∀ i, s.outBase.toNat ≤ i → t.ram.read i = s.ram.read i) ∧
    (∀ a m, (∀ i, i < s.outBase.toNat → m.read i = s.ram.read i) → memRead a { s with ram := m } = memRead a s)

/-- `MemRead` is R33's case distinction, with L the size of the RAM. The two fatal errors are the spec's decisions D3 and D4
(log 3, log 4). -/
def Obligations.MemReadFollowsTheAddressMap : Prop :=
  ∀ (s : State) (a : Address), s.ram.wf →
    memRead a s =
      if s.outBase ≤ a then .error (.outputDeviceRead a)
      else if h : a.toNat < s.ram.bytes.length then .ok (s.ram.bytes[a.toNat])
      else .error (.ramOutOfBounds a .read)

/-- `MemWrite` is R34's case distinction, with L the size of the RAM: exactly one byte or one appended element changes.
The fatal error is the spec's decision D3 (log 3). -/
def Obligations.MemWriteFollowsTheAddressMap : Prop :=
  ∀ (s : State) (a : Address) (v : Byte), s.ram.wf →
    memWrite a v s =
      if s.outBase ≤ a then .ok { s with out := s.out ++ [v] }
      else if a.toNat < s.ram.bytes.length then
        .ok { s with ram := Memory.ofImage (s.ram.bytes.set a.toNat v) }
      else .error (.ramOutOfBounds a .write)

/-- A read after a write (R38, R45): the written RAM byte reads as written, every other address as before. -/
def Obligations.ReadAfterWriteSeesTheWrittenByte : Prop :=
  ∀ (s t : State) (a : Address) (v : Byte), memWrite a v s = .ok t →
    (a < s.outBase → memRead a t = .ok v) ∧ (∀ x, x ≠ a → memRead x t = memRead x s) ∧
    (s.outBase ≤ a → ∀ x, memRead x t = memRead x s)

/-- The output device's write (R39): it always appends, whatever the address, and cannot be read back; in a step only
StoreDirect's tick 4 with an address from `OUT_BASE` on makes OUT grow, and then by exactly `acc`. -/
def Obligations.OutputGrowsOnlyByStoreDirect : Prop :=
  (∀ (s : State) (a : Address) (v : Byte), s.outBase ≤ a →
    memWrite a v s = .ok { s with out := s.out ++ [v] } ∧ ∀ b, memRead a s ≠ .ok b) ∧
  ∀ s t : State, step s = .next t →
    t.out =
      if s.Running ∧ s.tc = 4 ∧ s.cur = some .storeDirect ∧ s.outBase ≤ s.index then s.out ++ [s.acc] else s.out

/-- The RAM never grows or shrinks in a run and `OUT_BASE` never changes (R21, R38). -/
def Obligations.RamSizeAndOutBaseNeverChange : Prop :=
  ∀ (n : Nat) (s t : State), run n s = .next t →
    t.ram.map Prod.fst = s.ram.map Prod.fst ∧ t.outBase = s.outBase

/-- RAM storage from `OUT_BASE` on can never be read, written or executed (R49, with R37): a run from a state with other
bytes there goes the same way, and those bytes stay. -/
def Obligations.RamAboveOutBaseNeverInterferes : Prop :=
  ∀ (n : Nat) (s t : State) (m : Memory),
    (∀ i, i < s.outBase.toNat → m.read i = s.ram.read i) → run n s = .next t →
    ∃ m', run n { s with ram := m } = .next { t with ram := m' } ∧
      (∀ i, i < s.outBase.toNat → m'.read i = t.ram.read i) ∧
      (∀ i, s.outBase.toNat ≤ i → m'.read i = m.read i ∧ t.ram.read i = s.ram.read i)

/-! ## The sequencer -/

/-- The idle tick (R81): it sets `tc` to 1 and changes nothing else; reset leaves `tc` at 0, and so does every completing
tick, so an idle tick precedes every instruction. -/
def Obligations.IdleTickOnlyStartsTheNextInstruction : Prop :=
  (∀ s : State, s.Running → s.tc = 0 → step s = .next { s with tc := 1 } ∧ s.busOp = .none) ∧
  State.reset.Idle ∧
  ∀ s t : State, s.Running → step s = .next t → t.Running → t.tc ≠ s.tc + 1 → t.tc = 0

/-- The fetch tick on a legal opcode (R82): `cur` is latched, `tc` becomes 2, and `pc` and all else stay. -/
def Obligations.FetchTickLatchesTheInstruction : Prop :=
  ∀ (s : State) (op : Operation), s.Running → s.tc = 1 → memRead s.pc s = .ok (opcodeOf op) →
    step s = .next { s with cur := some op, tc := 2 }

/-- The address ticks on readable bytes (R83, R84): only `index` and `tc` change. -/
def Obligations.AddressTicksWriteOnlyIndex : Prop :=
  ∀ (s : State) (op : Operation) (b : Byte), s.Running → s.cur = some op →
    (s.tc = 2 → memRead (s.pc + 1) s = .ok b → step s = .next { s with index := b.setWidth 16, tc := 3 }) ∧
    (s.tc = 3 → memRead (s.pc + 2) s = .ok b →
      step s = .next { s with index := s.index + (b.setWidth 16 <<< 8), tc := 4 })

/-- A step runs the decoded instruction (R80 to R85): from an idle state whose bytes at `pc` decode to `i`, four ticks bring
the machine to `i`'s own first tick with only the sequencer and `index` changed, and the next step is `exec i`; and at any
own tick the step is `exec` of the current instruction with the address in `index`. -/
def Obligations.StepRunsTheDecodedInstruction : Prop :=
  (∀ (s : State) (i : Instr), s.Idle → s.HoldsInstr i →
    run 4 s = .next (s.fetched i) ∧ step (s.fetched i) = exec i (s.fetched i) ∧
    run 5 s = exec i (s.fetched i)) ∧
  ∀ (s : State) (op : Operation), s.Running → 4 ≤ s.tc → s.cur = some op → step s = exec (op.instr s.index) s

/-- Tick counts (R175): an instruction fetched from idle that meets no fatal error completes on tick 5, AddDirect on
tick 6, whatever the data, the address, the device or the branch; after `k` earlier ticks `tc` is `k` and `pc` still
addresses the instruction; at the end `tc` is 0 and `pc` addresses the next instruction. -/
def Obligations.TickCountsFromIdleAreExact : Prop :=
  ∀ (s u t : State) (op : Operation) (n : Nat),
    s.Idle → SucceedsIn 2 s u → u.cur = some op → n = (if op = .addDirect then 6 else 5) → SucceedsIn n s t →
    t.tc = 0 ∧ t.pc = (if op = .branchIfZeroSet ∧ s.acc = 0x00 then t.index else s.pc + 3) ∧
    ∀ k, 0 < k → k < n → ∃ v, SucceedsIn k s v ∧ v.tc = k ∧ v.pc = s.pc

/-- `run n` is exactly `n` ticks (R86): no tick changes nothing, one tick is the step, one tick more is one step more; running
`a` and then `b` ticks is running `a + b`; and once a fatal error is latched the remaining ticks of the count change
nothing. -/
def Obligations.RunsCompose : Prop :=
  (∀ s : State, run 0 s = .next s ∧ run 1 s = step s) ∧
  (∀ (n : Nat) (s t : State), run n s = .next t → run (n + 1) s = step t) ∧
  (∀ (a b : Nat) (s t : State), run (a + b) s = .next t ↔ ∃ u, run a s = .next u ∧ run b u = .next t) ∧
  ∀ (a b : Nat) (s t : State), run a s = .next t → t.fault ≠ none → run (a + b) s = .next t

/-- `tc` either counts up by one or returns to 0, the latter only from tick 4 or 5 of a legal sequencer state (R16, R85). -/
def Obligations.TickCounterCountsUpOrReturnsToZero : Prop :=
  ∀ s t : State, s.Running → step s = .next t → t.Running →
    t.tc = s.tc + 1 ∨ (t.tc = 0 ∧ ((s.tc = 4 ∧ s.cur ≠ some .addDirect) ∨ (s.tc = 5 ∧ s.cur = some .addDirect)))

/-- `pc` changes on completing ticks only, and in two ways only (R10, R121): past the instruction, or to the direct address
when BranchIfZeroSet finds `acc` zero. -/
def Obligations.PcChangesInTwoWaysOnly : Prop :=
  ∀ s t : State, s.Running → step s = .next t → t.Running →
    (t.tc ≠ 0 ∧ t.pc = s.pc) ∨
    (t.tc = 0 ∧ t.pc = if s.cur = some .branchIfZeroSet ∧ s.acc = 0x00 then s.index else s.pc + 3)

/-- On every tick that leaves `tc` other than 0, `pc`, `acc`, RAM and OUT stay as they are: they are never seen half-updated
(R138, R172). -/
def Obligations.ArchitecturalStateWaitsForCompletion : Prop :=
  ∀ s t : State, step s = .next t → t.tc ≠ 0 →
    t.pc = s.pc ∧ t.acc = s.acc ∧ t.ram = s.ram ∧ t.out = s.out

/-- `buffer` (R14): written by AddDirect's tick 4, with the byte read there, and by no other step, so it keeps its value
between; read by AddDirect's tick 5, whose sum it enters, and by no other step: every other step goes the same way whatever
`buffer` holds. -/
def Obligations.BufferIsPrivateToAddDirect : Prop :=
  (∀ s t : State, s.Running → s.cur = some .addDirect → step s = .next t →
    (∀ b, s.tc = 4 → memRead s.index s = .ok b → t.buffer = b) ∧ (s.tc = 5 → t.acc = s.acc + s.buffer)) ∧
  (∀ s t : State, step s = .next t →
    t.buffer = s.buffer ∨
      (s.Running ∧ s.tc = 4 ∧ s.cur = some .addDirect ∧ memRead s.index s = .ok t.buffer)) ∧
  ∀ (s t : State) (x : Byte), ¬ (s.tc = 5 ∧ s.cur = some .addDirect) → step s = .next t →
    step { s with buffer := x } = .next t ∨ step { s with buffer := x } = .next { t with buffer := x }

/-- `acc` (R12): written by LoadDirect's tick 4 (the byte read) and AddDirect's tick 5 (the sum) and by no other step; read
by StoreDirect's tick 4 (the byte stored), BranchIfZeroSet's tick 4 (the test) and AddDirect's tick 5 (an addend) and by no
other step: every other step goes the same way whatever `acc` holds. -/
def Obligations.AccIsUsedOnlyByOwnTicks : Prop :=
  (∀ s t : State, s.Running → step s = .next t →
    (s.tc = 4 → s.cur = some .loadDirect → ∀ b, memRead s.index s = .ok b → t.acc = b) ∧
    (s.tc = 5 → s.cur = some .addDirect → t.acc = s.acc + s.buffer) ∧
    (s.tc = 4 → s.cur = some .storeDirect → ∀ u, memWrite s.index s.acc s = .ok u → t.ram = u.ram ∧ t.out = u.out) ∧
    (s.tc = 4 → s.cur = some .branchIfZeroSet → t.pc = if s.acc = 0x00 then s.index else s.pc + 3)) ∧
  (∀ s t : State, step s = .next t →
    t.acc = s.acc ∨
    (s.Running ∧ s.tc = 4 ∧ s.cur = some .loadDirect ∧ memRead s.index s = .ok t.acc) ∨
    (s.Running ∧ s.tc = 5 ∧ s.cur = some .addDirect ∧ t.acc = s.acc + s.buffer)) ∧
  ∀ (s t : State) (x : Byte),
    ¬ (s.tc = 4 ∧ (s.cur = some .storeDirect ∨ s.cur = some .branchIfZeroSet)) →
    ¬ (s.tc = 5 ∧ s.cur = some .addDirect) → step s = .next t →
    step { s with acc := x } = .next t ∨ step { s with acc := x } = .next { t with acc := x }

/-- A tick touches RAM and OUT only by its one bus operation (R88): if the operation fails the tick only latches its error;
otherwise RAM and OUT are what the operation alone leaves, and the only error left is the fetch tick's `UnknownOpcode`.
That the failing tick is void is the spec's decision D5 (log 5). -/
def Obligations.EachTickActsThroughItsBusOperation : Prop :=
  ∀ s t : State, s.Running → step s = .next t →
    match s.busOp.perform s with
    | .error e => t = { s with fault := some e }
    | .ok (_, u) => t.ram = u.ram ∧ t.out = u.out ∧
        (t.fault = none ∨ (s.tc = 1 ∧ ∃ b, t = { s with fault := some (.unknownOpcode s.pc b) }))

/-! ## The instructions -/

/-- LoadDirect's tick 4 completes on every readable address (R100). -/
def Obligations.LoadDirectLoadsTheByte : Prop :=
  ∀ (s : State) (a : Address) (b : Byte), s.tc = 4 → memRead a s = .ok b →
    exec (.loadDirect a) s = .next { s with acc := b, pc := s.pc + 3, tc := 0 }

/-- StoreDirect's tick 4 completes on every address of the output range and of the loaded RAM (R101). -/
def Obligations.StoreDirectWritesTheAccumulator : Prop :=
  ∀ (s : State) (a : Address), s.tc = 4 →
    (s.outBase ≤ a →
      exec (.storeDirect a) s = .next { s with out := s.out ++ [s.acc], pc := s.pc + 3, tc := 0 }) ∧
    (∀ b, a < s.outBase → s.ram.read a.toNat = some b →
      exec (.storeDirect a) s = .next { s with ram := s.ram.write a.toNat s.acc, pc := s.pc + 3, tc := 0 })

/-- AddDirect's two own ticks (R110, R111): tick 4 reads the operand once into `buffer`, tick 5 adds and completes. -/
def Obligations.AddDirectReadsThenAdds : Prop :=
  ∀ (s : State) (a : Address),
    (∀ b, s.tc = 4 → memRead a s = .ok b →
      exec (.addDirect a) s = .next { s with buffer := b, tc := 5 } ∧
      exec (.addDirect a) { s with buffer := b, tc := 5 } =
        .next { s with buffer := b, acc := s.acc + b, pc := s.pc + 3, tc := 0 }) ∧
    (s.tc = 5 → exec (.addDirect a) s = .next { s with acc := s.acc + s.buffer, pc := s.pc + 3, tc := 0 })

/-- BranchIfZeroSet's tick 4 always completes (R120): to the direct address when `acc` is zero, else past the instruction;
the target is not probed. -/
def Obligations.BranchIfZeroSetWritesPc : Prop :=
  ∀ (s : State) (a : Address), s.tc = 4 →
    (s.acc = 0x00 → exec (.branchIfZeroSet a) s = .next { s with pc := a, tc := 0 }) ∧
    (s.acc ≠ 0x00 → exec (.branchIfZeroSet a) s = .next { s with pc := s.pc + 3, tc := 0 })

/-- Where the data access of LoadDirect, StoreDirect or AddDirect fails, tick 4 latches the error and writes nothing else
(R100, R101, R110; the spec's decisions D3, D4 and D5, log 3, log 4, log 5). -/
def Obligations.DataAccessErrorsLatchAndWriteNothing : Prop :=
  ∀ (s : State) (a : Address), s.tc = 4 →
    (s.outBase ≤ a →
      exec (.loadDirect a) s = .next { s with fault := some (.outputDeviceRead a) } ∧
      exec (.addDirect a) s = .next { s with fault := some (.outputDeviceRead a) }) ∧
    (a < s.outBase → s.ram.read a.toNat = none →
      exec (.loadDirect a) s = .next { s with fault := some (.ramOutOfBounds a .read) } ∧
      exec (.addDirect a) s = .next { s with fault := some (.ramOutOfBounds a .read) } ∧
      exec (.storeDirect a) s = .next { s with fault := some (.ramOutOfBounds a .write) })

/-- An instruction has no tick of its own but tick 4, and AddDirect tick 5: elsewhere its meaning refuses by name (R23; the
spec's decision D12, log 10). -/
def Obligations.InstructionsHaveOnlyTheirOwnTicks : Prop :=
  ∀ (i : Instr) (s : State), s.tc ≠ 4 → ¬ (s.tc = 5 ∧ i.operation = .addDirect) →
    exec i s = .refused (.noSuccessor s.tc (some i.operation))

/-- The frame of LoadDirect, AddDirect and BranchIfZeroSet, which store nothing (R100, R110, R120): every byte of memory, OUT,
`index`, `cur` and `OUT_BASE` are unchanged; `acc` changes only by a load or at AddDirect's tick 5, `buffer` only at
AddDirect's tick 4, and the fault latch only where it is all that changes. -/
def Obligations.NonStoringInstructionsFrame : Prop :=
  ∀ (i : Instr) (s t : State), (∀ a, i ≠ .storeDirect a) → exec i s = .next t →
    (∀ x, memRead x t = memRead x s) ∧ t.ram = s.ram ∧ t.out = s.out ∧ t.index = s.index ∧ t.cur = s.cur ∧
    t.outBase = s.outBase ∧ (t.fault = s.fault ∨ ∃ e, t = { s with fault := some e }) ∧
    (i.operation = .branchIfZeroSet ∨ (i.operation = .addDirect ∧ s.tc = 4) → t.acc = s.acc) ∧
    (i.operation ≠ .addDirect ∨ s.tc = 5 → t.buffer = s.buffer)

/-- The frame of StoreDirect (R101), which stores one byte at its direct address: every register but `pc` and `tc` is
unchanged (the fault latch changes only where it is all that changes), every byte of memory but that one reads as before, and OUT is unchanged unless the address is the output
device's, where then no byte of memory changes. -/
def Obligations.StoreDirectFrame : Prop :=
  ∀ (a : Address) (s t : State), exec (.storeDirect a) s = .next t →
    t.acc = s.acc ∧ t.index = s.index ∧ t.buffer = s.buffer ∧ t.cur = s.cur ∧ t.outBase = s.outBase ∧
    (t.fault = s.fault ∨ ∃ e, t = { s with fault := some e }) ∧
    (∀ i, i ≠ a.toNat → t.ram.read i = s.ram.read i) ∧
    (∀ x, x ≠ a → memRead x t = memRead x s) ∧
    (a < s.outBase → t.out = s.out) ∧
    (s.outBase ≤ a → t.ram = s.ram ∧ ∀ x, memRead x t = memRead x s)

/-- A whole LoadDirect from idle: five ticks (R100, R175). -/
def Obligations.LoadDirectFromIdle : Prop :=
  ∀ (s : State) (a : Address) (b : Byte), s.Idle → s.HoldsInstr (.loadDirect a) → memRead a s = .ok b →
    run 5 s = .next { s with acc := b, index := a, cur := some .loadDirect, pc := s.pc + 3 }

/-- A whole StoreDirect from idle: five ticks, in each of its two completing forms (R101, R175). -/
def Obligations.StoreDirectFromIdle : Prop :=
  ∀ (s : State) (a : Address), s.Idle → s.HoldsInstr (.storeDirect a) →
    (s.outBase ≤ a →
      run 5 s =
        .next { s with out := s.out ++ [s.acc], index := a, cur := some .storeDirect, pc := s.pc + 3 }) ∧
    (∀ b, memRead a s = .ok b →
      run 5 s =
        .next { s with
          ram := s.ram.write a.toNat s.acc, index := a, cur := some .storeDirect, pc := s.pc + 3 })

/-- A whole AddDirect from idle: six ticks, and after five the sum is not there yet (R110, R111, R175). -/
def Obligations.AddDirectFromIdle : Prop :=
  ∀ (s : State) (a : Address) (b : Byte), s.Idle → s.HoldsInstr (.addDirect a) → memRead a s = .ok b →
    run 5 s = .next { s with buffer := b, index := a, cur := some .addDirect, tc := 5 } ∧
    run 6 s =
      .next { s with acc := s.acc + b, buffer := b, index := a, cur := some .addDirect, pc := s.pc + 3 }

/-- A whole BranchIfZeroSet from idle: five ticks whether taken or not; no address but its own three bytes needs to be
readable (R120, R175). -/
def Obligations.BranchIfZeroSetFromIdle : Prop :=
  ∀ (s : State) (a : Address), s.Idle → s.HoldsInstr (.branchIfZeroSet a) →
    run 5 s =
      .next { s with
        index := a, cur := some .branchIfZeroSet, pc := if s.acc = 0x00 then a else s.pc + 3 }

/-- Self-modified operands (R170, R47): a StoreDirect over an operand byte of the very next instruction is seen by the
address tick that reads that byte. A store over the low byte is seen at that instruction's tick 2, the third tick after
the store's tick 4; a store over the high byte at its tick 3, the fourth. -/
def Obligations.NextInstructionSeesTheStoredOperand : Prop :=
  ∀ (s : State) (op : Operation) (old : Byte),
    s.Running → s.tc = 4 → s.cur = some .storeDirect → memRead s.index s = .ok old →
    memRead (s.pc + 3) s = .ok (opcodeOf op) →
    (s.index = s.pc + 3 + 1 →
      ∃ t, run 4 s = .next t ∧ t.pc = s.pc + 3 ∧ t.cur = some op ∧ t.tc = 3 ∧ t.index = s.acc.setWidth 16) ∧
    (∀ lo, s.index = s.pc + 3 + 2 → memRead (s.pc + 3 + 1) s = .ok lo →
      ∃ t, run 5 s = .next t ∧ t.pc = s.pc + 3 ∧ t.cur = some op ∧ t.tc = 4 ∧
        t.index = BitVec.ofNat 16 (lo.toNat + 256 * s.acc.toNat))

/-- A store cannot change the instruction in flight (R171): a StoreDirect over one of its own three bytes makes the write and
still completes as a StoreDirect to the old address. -/
def Obligations.StoreOverItselfStillCompletes : Prop :=
  ∀ (s : State) (a : Address), s.Idle → s.HoldsInstr (.storeDirect a) →
    (a = s.pc ∨ a = s.pc + 1 ∨ a = s.pc + 2) →
    ∃ t, run 5 s = .next t ∧ t.Idle ∧ t.pc = s.pc + 3 ∧ t.cur = some .storeDirect ∧ t.index = a ∧
      memRead a t = .ok s.acc

/-- The halt idiom (R123, R169): from an idle state with `acc` zero and a BranchIfZeroSet to itself at `pc`, every number of
ticks leaves the whole state as it was but for the sequencer and `index`: `tc` cycles 0 to 4, `cur` is BranchIfZeroSet from
the first fetch on, and `index` is the low byte of `pc` after each tick 2 and `pc` after each tick 3. From any other point
of the loop too, no number of ticks changes `pc`, `acc`, `buffer`, RAM, OUT or the fault latch, and `tc` cycles on. -/
def Obligations.SelfBranchRepeatsForever : Prop :=
  (∀ (s : State) (n : Nat), s.Idle → s.acc = 0x00 → s.HoldsInstr (.branchIfZeroSet s.pc) →
    run n s = .next { s with
      tc := n % 5
      cur := if n < 2 then s.cur else some .branchIfZeroSet
      index := if n < 3 then s.index else if n % 5 = 3 then (s.pc.setWidth 8).setWidth 16 else s.pc }) ∧
  ∀ (s : State) (n : Nat), s.InHaltLoop →
    ∃ t, run n s = .next t ∧ t.tc = (s.tc + n) % 5 ∧ t.pc = s.pc ∧ t.acc = s.acc ∧ t.buffer = s.buffer ∧
      t.ram = s.ram ∧ t.out = s.out ∧ t.fault = s.fault

/-- Every tick keeps the halt idiom's loop (R123, R169): it completes, in a state of the same loop, with `tc` one further in
its cycle of five and only the sequencer and `index` changed. -/
def Obligations.StepStaysInTheHaltLoop : Prop :=
  ∀ s : State, s.InHaltLoop →
    ∃ t, step s = .next t ∧ t.InHaltLoop ∧ t.tc = (s.tc + 1) % 5 ∧
      t = { s with tc := t.tc, cur := t.cur, index := t.index }

/-! ## Fatal errors and refusals -/

/-- The tick that raises a fatal error writes the latch and nothing else (R136; the spec's decision D5, log 5). -/
def Obligations.FatalTickWritesOnlyTheLatch : Prop :=
  ∀ (s t : State) (e : Fault), s.Running → step s = .next t → t.fault = some e → t = { s with fault := some e }

/-- A halted machine stays as it is for ever (R80, R136, R140; the spec's decision D5, log 5). -/
def Obligations.HaltedMachineNeverChanges : Prop :=
  ∀ (n : Nat) (s : State), s.fault ≠ none → run n s = .next s

/-- Which fatal error a tick can raise, when, and with what information (R130, R137; the spec's decisions D3, D4, D9, log 3,
log 4, log 8): `UnknownOpcode` only at tick 1, the bus errors only by that tick's bus operation, and never
`UnmappedAddress`. -/
def Obligations.FatalErrorsHaveTheirCause : Prop :=
  ∀ (s t : State) (e : Fault), s.Running → step s = .next t → t.fault = some e →
    1 ≤ s.tc ∧ s.tc ≤ 4 ∧
    match e with
    | .unknownOpcode p b => s.tc = 1 ∧ p = s.pc ∧ memRead s.pc s = .ok b ∧ lookupOpcode b = none
    | .unmappedAddress _ => False
    | .ramOutOfBounds a .read => s.busOp = .read a ∧ a < s.outBase ∧ s.ram.read a.toNat = none
    | .ramOutOfBounds a .write => s.busOp = .write a s.acc ∧ a < s.outBase ∧ s.ram.read a.toNat = none
    | .outputDeviceRead a => s.busOp = .read a ∧ s.outBase ≤ a

/-- A step is refused exactly in the sequencer states that R23 leaves without a successor (the spec's decision D12, log 10), by
name, and it never answers a fault outcome (log 5). -/
def Obligations.StepRefusesOnlyUnreachedSequencerStates : Prop :=
  ∀ s : State,
    (∀ f, step s ≠ .fault f) ∧
    (∀ r, step s = .refused r ↔
      s.Running ∧ legalSequencer s.tc s.cur = false ∧ r = .noSuccessor s.tc s.cur)

/-! ## Invariants -/

/-- Every step keeps the well-formed states: RAM in canonical form, a sequencer pair of R23, a legal `OUT_BASE`. -/
def Obligations.StepKeepsWellFormedStates : Prop :=
  ∀ s t : State, s.Wf → step s = .next t → t.Wf

/-- Every step keeps the registers of the instruction in flight in agreement with its bytes in memory (R10, R13, R14, R17,
R47). -/
def Obligations.StepKeepsInFlightRegisters : Prop :=
  ∀ s t : State, s.InFlight → step s = .next t → t.InFlight

/-- Reset meets both invariants (R22), and so does every launch state with a legal `OUT_BASE` (R168). -/
def Obligations.LaunchMeetsTheInvariants : Prop :=
  (State.reset.Wf ∧ State.reset.InFlight) ∧
  ∀ (outBase : Address) (image : List Byte) (p : Presets), legalOutBase outBase = true →
    (launch outBase image p).Wf ∧ (launch outBase image p).InFlight

/-- A well-formed state is never refused: every run from it goes on, for any number of ticks, through well-formed states (R23,
R80). -/
def Obligations.WellFormedStatesRunForever : Prop :=
  ∀ (n : Nat) (s : State), s.Wf → ∃ t, run n s = .next t ∧ t.Wf

/-! ## Reset and the host -/

/-- The reset values (R22). The values of `cur`, OUT and RAM are the spec's decisions D6 and D7 (log 6), `OUT_BASE` its
default (D1, log 1). -/
def Obligations.ResetValues : Prop :=
  State.reset.pc = 0x0000 ∧ State.reset.acc = 0x00 ∧ State.reset.index = 0x0000 ∧ State.reset.buffer = 0x00 ∧
  State.reset.tc = 0 ∧ State.reset.cur = none ∧ State.reset.ram = [] ∧ State.reset.out = [] ∧
  State.reset.fault = none ∧ State.reset.outBase = 0xF000

/-- The launch state (R49, R168): RAM is the image and L its length, the presets are set, all else is as after reset (what
`load` leaves alone is the spec's decision D7, log 7). -/
def Obligations.LaunchStateHoldsTheImage : Prop :=
  ∀ (outBase : Address) (image : List Byte) (p : Presets),
    (∀ i, (launch outBase image p).ram.read i = image[i]?) ∧
    (launch outBase image p).ram.length = image.length ∧
    (launch outBase image p).ram.bytes = image ∧
    (launch outBase image p).pc = p.pc.getD 0x0000 ∧ (launch outBase image p).acc = p.acc.getD 0x00 ∧
    (launch outBase image p).index = p.index.getD 0x0000 ∧ (launch outBase image p).buffer = p.buffer.getD 0x00 ∧
    (launch outBase image p).tc = 0 ∧ (launch outBase image p).cur = none ∧ (launch outBase image p).out = [] ∧
    (launch outBase image p).fault = none ∧ (launch outBase image p).outBase = outBase

/-- A machine run without a `load` fails at its first fetch (R162; the spec's decisions D3 and D5, log 3, log 5). -/
def Obligations.EmptyMachineFailsAtItsFirstFetch : Prop :=
  ∀ outBase : Address, legalOutBase outBase = true →
    run 1 (launch outBase [] {}) = .next { launch outBase [] {} with tc := 1 } ∧
    run 2 (launch outBase [] {}) =
      .next { launch outBase [] {} with tc := 1, fault := some (.ramOutOfBounds 0x0000 .read) }

/-- Host actions in the order of R162 (R163, R165; the spec's decisions D7 and D8, log 7): construction, one `load`, presets
and ticks are admitted and run the launch state; a `load` anywhere but right after construction and a preset anywhere but
between the `load` and the first tick are refused by name. So a second `load` is refused, also after the `load` of an
empty image; a preset before the `load` is; and a `load` after a preset is, whatever the preset was. -/
def Obligations.HostActionsFollowTheLaunchSequence : Prop :=
  (∀ (outBase : Address) (image : List Byte) (p : Presets) (n : Nat) (t : State),
    hostCalls [.load image, .preset p] (.construct outBase) = .next ⟨.loaded, launch outBase image p⟩ ∧
    (run (n + 1) (launch outBase image p) = .next t →
      hostCalls [.load image, .preset p, .run (n + 1)] (.construct outBase) = .next ⟨.started, t⟩)) ∧
  (∀ (image : List Byte) (h : Session), ¬ h.StandsAt .constructed →
    hostLoad image h = .refused (.hostAction .load)) ∧
  (∀ (p : Presets) (h : Session), ¬ h.StandsAt .loaded → hostPreset p h = .refused (.hostAction .preset)) ∧
  ∀ (outBase : Address) (image again : List Byte) (p : Presets) (h k : Session),
    hostPreset p (.construct outBase) = .refused (.hostAction .preset) ∧
    (hostLoad image h = .next k → hostLoad again k = .refused (.hostAction .load)) ∧
    (hostPreset p h = .next k → hostLoad again k = .refused (.hostAction .load))

/-- The first tick ends the launch sequence (R162, R163, R165; the spec's decisions D7 and D8, log 7): every loaded launch state
admits presets, and after one tick or more, from any state, no `load` and no preset is admitted in any phase, between two
instructions or two runs neither. -/
def Obligations.HostWritesEndWithTheFirstTick : Prop :=
  (∀ (outBase : Address) (image : List Byte) (p q : Presets),
    hostPreset q ⟨.loaded, launch outBase image p⟩ = .next ⟨.loaded, (launch outBase image p).preset q⟩) ∧
  ∀ (n : Nat) (s t : State) (phase : LaunchPhase) (image : List Byte) (p : Presets), 0 < n → run n s = .next t →
    hostLoad image ⟨phase, t⟩ = .refused (.hostAction .load) ∧
    hostPreset p ⟨phase, t⟩ = .refused (.hostAction .preset)

/-- Every machine a host can have is a launch state run for some ticks (R162, R164, R168; the spec's decisions D7 and D8, log 7):
after any list of admitted calls from construction, the machine is what some number of ticks make of the launch state of
some image and presets; the phase tells whether a tick was taken, and before a `load` the image is empty and nothing preset. -/
def Obligations.AdmittedCallsReachLaunchedRuns : Prop :=
  ∀ (outBase : Address) (calls : List HostCall) (h : Session), hostCalls calls (.construct outBase) = .next h →
    ∃ (image : List Byte) (p : Presets) (n : Nat),
      run n (launch outBase image p) = .next h.machine ∧ (h.phase = .started ↔ 0 < n) ∧
      (h.phase = .constructed → image = [] ∧ p = {})
end

