-- ==== Sys2Proof/Laws/Decode.lean ====
section
/-! SUPPORT. The small lemmas of the instruction table and of the syntax. -/

namespace Sys2Proof

@[simp] theorem Operation.instr_operation (op : Operation) (a : Address) : (op.instr a).operation = op := by
  cases op <;> rfl

@[simp] theorem Operation.instr_operand (op : Operation) (a : Address) : (op.instr a).operand = a := by
  cases op <;> rfl

@[simp] theorem Instr.operation_instr_operand (i : Instr) : i.operation.instr i.operand = i := by
  cases i <;> rfl

@[simp] theorem lookupOpcode_opcodeOf (op : Operation) : lookupOpcode (opcodeOf op) = some op := by
  cases op <;> rfl

/-- The table's lookup answers an operation on that operation's opcode byte and on no other byte. -/
theorem lookupOpcode_eq_some {b : Byte} {op : Operation} : lookupOpcode b = some op ↔ b = opcodeOf op := by
  constructor
  · intro h
    unfold lookupOpcode at h
    split at h <;> [skip; split at h <;> [skip; split at h <;> [skip; split at h]]] <;>
      simp_all <;> subst h <;> rfl
  · rintro rfl
    simp

/-- What a successful decoding of three bytes says. -/
theorem decode_three {opcode lo hi : Byte} {i : Instr} {rest : List Byte}
    (h : decode [opcode, lo, hi] = .ok (i, rest)) :
    lookupOpcode opcode = some i.operation ∧ i.operand = directAddress lo hi ∧ rest = [] := by
  simp only [decode] at h
  split at h
  · cases h
  · next op hop =>
    cases h
    simp [hop]

end Sys2Proof
end

