-- ==== Sys2Proof/Laws/Memory.lean ====
section
/-! SUPPORT. The laws of the RAM device's storage: what a write leaves, what an image holds, the canonical form. -/

namespace Sys2Proof.Machine

@[simp] theorem Memory.read_nil (i : Nat) : Memory.read [] i = none := rfl

@[simp] theorem Memory.write_nil (i : Nat) (v : Byte) : Memory.write [] i v = [] := rfl

theorem Memory.read_cons (k : Nat) (b : Byte) (m : Memory) (i : Nat) :
    Memory.read ((k, b) :: m) i = if k = i then some b else Memory.read m i := rfl

theorem Memory.write_cons (k : Nat) (b : Byte) (m : Memory) (i : Nat) (v : Byte) :
    Memory.write ((k, b) :: m) i v = if k = i then (k, v) :: m else (k, b) :: Memory.write m i v := rfl

/-- The canonical form lists its indices strictly rising. -/
theorem Memory.wf_rising {m : Memory} (h : m.wf) : (m.map Prod.fst).Pairwise (· < ·) := by
  rw [h]
  exact List.pairwise_lt_range

/-- A write keeps the listed indices. -/
@[simp] theorem Memory.write_indices (m : Memory) (i : Nat) (v : Byte) :
    (m.write i v).map Prod.fst = m.map Prod.fst := by
  induction m with
  | nil => rfl
  | cons c m ih =>
    obtain ⟨k, b⟩ := c
    rw [Memory.write_cons]
    split <;> simp_all

/-- A write keeps the size of the storage (R38). -/
@[simp] theorem Memory.write_length (m : Memory) (i : Nat) (v : Byte) : (m.write i v).length = m.length := by
  have h := congrArg List.length (m.write_indices i v)
  rwa [List.length_map, List.length_map] at h

/-- A write keeps the canonical form. -/
theorem Memory.write_wf {m : Memory} (h : m.wf) (i : Nat) (v : Byte) : (m.write i v).wf := by
  rw [Memory.wf, Memory.write_indices, Memory.write_length]
  exact h

theorem Memory.read_write_other (m : Memory) {i j : Nat} (h : j ≠ i) (v : Byte) :
    (m.write i v).read j = m.read j := by
  induction m with
  | nil => rfl
  | cons c m ih =>
    obtain ⟨k, b⟩ := c
    rw [Memory.write_cons]
    split
    · next hk => subst hk; simp [Memory.read_cons, Ne.symm h]
    · simp [Memory.read_cons, ih]

theorem Memory.read_write_same {m : Memory} {i : Nat} {b : Byte} (h : m.read i = some b) (v : Byte) :
    (m.write i v).read i = some v := by
  induction m with
  | nil => cases h
  | cons c m ih =>
    obtain ⟨k, b'⟩ := c
    rw [Memory.write_cons]
    split
    · next hk => simp [Memory.read_cons, hk]
    · next hk => simpa [Memory.read_cons, hk] using ih (by simpa [Memory.read_cons, hk] using h)

theorem Memory.cellsFrom_indices (n : Nat) (image : List Byte) :
    (Memory.cellsFrom n image).map Prod.fst = List.range' n image.length := by
  induction image generalizing n with
  | nil => rfl
  | cons b rest ih => simp [Memory.cellsFrom, ih, List.range'_succ]

theorem Memory.cellsFrom_length (n : Nat) (image : List Byte) :
    (Memory.cellsFrom n image).length = image.length := by
  have h := congrArg List.length (Memory.cellsFrom_indices n image)
  rwa [List.length_map, List.length_range'] at h

/-- A loaded image is in canonical form. -/
theorem Memory.ofImage_wf (image : List Byte) : (Memory.ofImage image).wf := by
  rw [Memory.wf, Memory.ofImage, Memory.cellsFrom_indices, Memory.cellsFrom_length, List.range_eq_range']

theorem Memory.cellsFrom_bytes (n : Nat) (image : List Byte) :
    (Memory.cellsFrom n image).bytes = image := by
  induction image generalizing n with
  | nil => rfl
  | cons b rest ih => simpa [Memory.cellsFrom, Memory.bytes] using ih (n + 1)

theorem Memory.read_cellsFrom_below (image : List Byte) {n i : Nat} (h : i < n) :
    (Memory.cellsFrom n image).read i = none := by
  induction image generalizing n with
  | nil => rfl
  | cons b rest ih => simp [Memory.cellsFrom, Memory.read_cons, Nat.ne_of_gt h, ih (Nat.lt_succ_of_lt h)]

theorem Memory.read_cellsFrom (image : List Byte) (n i : Nat) :
    (Memory.cellsFrom n image).read (n + i) = image[i]? := by
  induction image generalizing n i with
  | nil => rfl
  | cons b rest ih =>
    cases i with
    | zero => simp [Memory.cellsFrom, Memory.read_cons]
    | succ i =>
      have := ih (n + 1) i
      rw [show n + 1 + i = n + (i + 1) by omega] at this
      simp [Memory.cellsFrom, Memory.read_cons, this]

/-- Storage in canonical form is the image of its own bytes. -/
theorem Memory.ofImage_bytes {m : Memory} (h : m.wf) : Memory.ofImage m.bytes = m := by
  have hl : (Memory.ofImage m.bytes).length = m.length := by
    rw [Memory.ofImage, Memory.cellsFrom_length, Memory.bytes, List.length_map]
  have h1 : (Memory.ofImage m.bytes).map Prod.fst = m.map Prod.fst := by
    rw [Memory.ofImage_wf m.bytes, hl, h]
  have h2 : (Memory.ofImage m.bytes).map Prod.snd = m.map Prod.snd := Memory.cellsFrom_bytes 0 m.bytes
  simpa only [← List.unzip_fst, ← List.unzip_snd, List.zip_unzip] using congrArg₂ List.zip h1 h2

/-- Storage in canonical form reads as the list of its bytes. -/
theorem Memory.read_of_wf {m : Memory} (h : m.wf) (i : Nat) : m.read i = m.bytes[i]? := by
  conv_lhs => rw [← Memory.ofImage_bytes h]
  simpa [Memory.ofImage] using Memory.read_cellsFrom m.bytes 0 i

end Sys2Proof.Machine
end

