-- ==== Sys2Proof/Laws/State.lean ====
section
/-! SUPPORT. One lemma per field for each of the shared updates of State. -/

namespace Sys2Proof.Machine

/-! ## Raising a fatal error -/

@[simp] theorem State.raise_pc (e : Fault) (s : State) : (s.raise e).pc = s.pc := rfl
@[simp] theorem State.raise_acc (e : Fault) (s : State) : (s.raise e).acc = s.acc := rfl
@[simp] theorem State.raise_index (e : Fault) (s : State) : (s.raise e).index = s.index := rfl
@[simp] theorem State.raise_buffer (e : Fault) (s : State) : (s.raise e).buffer = s.buffer := rfl
@[simp] theorem State.raise_tc (e : Fault) (s : State) : (s.raise e).tc = s.tc := rfl
@[simp] theorem State.raise_cur (e : Fault) (s : State) : (s.raise e).cur = s.cur := rfl
@[simp] theorem State.raise_ram (e : Fault) (s : State) : (s.raise e).ram = s.ram := rfl
@[simp] theorem State.raise_out (e : Fault) (s : State) : (s.raise e).out = s.out := rfl
@[simp] theorem State.raise_fault (e : Fault) (s : State) : (s.raise e).fault = some e := rfl
@[simp] theorem State.raise_outBase (e : Fault) (s : State) : (s.raise e).outBase = s.outBase := rfl

/-- A machine that has raised a fatal error does not run on (R136). -/
@[simp] theorem State.not_running_raise (e : Fault) (s : State) : ¬ (s.raise e).Running := nofun

/-! ## The end of a tick that does not complete -/

@[simp] theorem State.advance_pc (s : State) : s.advance.pc = s.pc := rfl
@[simp] theorem State.advance_acc (s : State) : s.advance.acc = s.acc := rfl
@[simp] theorem State.advance_index (s : State) : s.advance.index = s.index := rfl
@[simp] theorem State.advance_buffer (s : State) : s.advance.buffer = s.buffer := rfl
@[simp] theorem State.advance_tc (s : State) : s.advance.tc = s.tc + 1 := rfl
@[simp] theorem State.advance_cur (s : State) : s.advance.cur = s.cur := rfl
@[simp] theorem State.advance_ram (s : State) : s.advance.ram = s.ram := rfl
@[simp] theorem State.advance_out (s : State) : s.advance.out = s.out := rfl
@[simp] theorem State.advance_fault (s : State) : s.advance.fault = s.fault := rfl
@[simp] theorem State.advance_outBase (s : State) : s.advance.outBase = s.outBase := rfl

/-! ## The end of a completing tick -/

@[simp] theorem State.complete_pc (p : Address) (s : State) : (s.complete p).pc = p := rfl
@[simp] theorem State.complete_acc (p : Address) (s : State) : (s.complete p).acc = s.acc := rfl
@[simp] theorem State.complete_index (p : Address) (s : State) : (s.complete p).index = s.index := rfl
@[simp] theorem State.complete_buffer (p : Address) (s : State) : (s.complete p).buffer = s.buffer := rfl
@[simp] theorem State.complete_tc (p : Address) (s : State) : (s.complete p).tc = 0 := rfl
@[simp] theorem State.complete_cur (p : Address) (s : State) : (s.complete p).cur = s.cur := rfl
@[simp] theorem State.complete_ram (p : Address) (s : State) : (s.complete p).ram = s.ram := rfl
@[simp] theorem State.complete_out (p : Address) (s : State) : (s.complete p).out = s.out := rfl
@[simp] theorem State.complete_fault (p : Address) (s : State) : (s.complete p).fault = s.fault := rfl
@[simp] theorem State.complete_outBase (p : Address) (s : State) : (s.complete p).outBase = s.outBase := rfl

/-! ## The state of a fetched instruction -/

@[simp] theorem State.fetched_pc (i : Instr) (s : State) : (s.fetched i).pc = s.pc := rfl
@[simp] theorem State.fetched_acc (i : Instr) (s : State) : (s.fetched i).acc = s.acc := rfl
@[simp] theorem State.fetched_index (i : Instr) (s : State) : (s.fetched i).index = i.operand := rfl
@[simp] theorem State.fetched_buffer (i : Instr) (s : State) : (s.fetched i).buffer = s.buffer := rfl
@[simp] theorem State.fetched_tc (i : Instr) (s : State) : (s.fetched i).tc = 4 := rfl
@[simp] theorem State.fetched_cur (i : Instr) (s : State) : (s.fetched i).cur = some i.operation := rfl
@[simp] theorem State.fetched_ram (i : Instr) (s : State) : (s.fetched i).ram = s.ram := rfl
@[simp] theorem State.fetched_out (i : Instr) (s : State) : (s.fetched i).out = s.out := rfl
@[simp] theorem State.fetched_fault (i : Instr) (s : State) : (s.fetched i).fault = s.fault := rfl
@[simp] theorem State.fetched_outBase (i : Instr) (s : State) : (s.fetched i).outBase = s.outBase := rfl

/-! ## Loading an image and presetting registers -/

@[simp] theorem State.load_pc (m : List Byte) (s : State) : (s.load m).pc = s.pc := rfl
@[simp] theorem State.load_acc (m : List Byte) (s : State) : (s.load m).acc = s.acc := rfl
@[simp] theorem State.load_index (m : List Byte) (s : State) : (s.load m).index = s.index := rfl
@[simp] theorem State.load_buffer (m : List Byte) (s : State) : (s.load m).buffer = s.buffer := rfl
@[simp] theorem State.load_ram (m : List Byte) (s : State) : (s.load m).ram = Memory.ofImage m := rfl
@[simp] theorem State.load_out (m : List Byte) (s : State) : (s.load m).out = s.out := rfl
@[simp] theorem State.load_tc (m : List Byte) (s : State) : (s.load m).tc = s.tc := rfl
@[simp] theorem State.load_cur (m : List Byte) (s : State) : (s.load m).cur = s.cur := rfl
@[simp] theorem State.load_fault (m : List Byte) (s : State) : (s.load m).fault = s.fault := rfl
@[simp] theorem State.load_outBase (m : List Byte) (s : State) : (s.load m).outBase = s.outBase := rfl
@[simp] theorem State.preset_pc (p : Presets) (s : State) : (s.preset p).pc = p.pc.getD s.pc := rfl
@[simp] theorem State.preset_acc (p : Presets) (s : State) : (s.preset p).acc = p.acc.getD s.acc := rfl
@[simp] theorem State.preset_index (p : Presets) (s : State) : (s.preset p).index = p.index.getD s.index := rfl
@[simp] theorem State.preset_buffer (p : Presets) (s : State) : (s.preset p).buffer = p.buffer.getD s.buffer := rfl
@[simp] theorem State.preset_ram (p : Presets) (s : State) : (s.preset p).ram = s.ram := rfl
@[simp] theorem State.preset_out (p : Presets) (s : State) : (s.preset p).out = s.out := rfl
@[simp] theorem State.preset_tc (p : Presets) (s : State) : (s.preset p).tc = s.tc := rfl
@[simp] theorem State.preset_cur (p : Presets) (s : State) : (s.preset p).cur = s.cur := rfl
@[simp] theorem State.preset_fault (p : Presets) (s : State) : (s.preset p).fault = s.fault := rfl
@[simp] theorem State.preset_outBase (p : Presets) (s : State) : (s.preset p).outBase = s.outBase := rfl

/-- Everything the host's `load` can do when it is admitted (R163). -/
theorem hostLoad_next {m : List Byte} {h k : Session} :
    hostLoad m h = .next k ↔ h.StandsAt .constructed ∧ k = ⟨.loaded, h.machine.load m⟩ := by
  unfold hostLoad
  split
  · next hs => exact ⟨fun e => ⟨hs, by cases e; rfl⟩, fun e => by rw [e.2]⟩
  · next hs => exact ⟨nofun, fun e => absurd e.1 hs⟩

/-- Everything a preset can do when it is admitted (R165). -/
theorem hostPreset_next {p : Presets} {h k : Session} :
    hostPreset p h = .next k ↔ h.StandsAt .loaded ∧ k = ⟨.loaded, h.machine.preset p⟩ := by
  unfold hostPreset
  split
  · next hs => exact ⟨fun e => ⟨hs, by cases e; rfl⟩, fun e => by rw [e.2]⟩
  · next hs => exact ⟨nofun, fun e => absurd e.1 hs⟩

/-- Everything the host's `run` can do when it is not refused (R164). -/
theorem hostRun_next {n : Nat} {h k : Session} :
    hostRun n h = .next k ↔
      ∃ t, run n h.machine = .next t ∧ k = ⟨if n = 0 then h.phase else .started, t⟩ := by
  unfold hostRun
  cases run n h.machine with
  | next t => exact ⟨fun e => ⟨t, rfl, by cases e; rfl⟩, fun ⟨u, hu, hk⟩ => by cases hu; rw [hk]⟩
  | fault e => exact ⟨nofun, fun ⟨u, hu, _⟩ => nomatch hu⟩
  | refused r => exact ⟨nofun, fun ⟨u, hu, _⟩ => nomatch hu⟩

end Sys2Proof.Machine
end

