-- ==== Sys2Proof/Laws/Ops.lean ====
section
/-! SUPPORT. What the shared operations over the bus can do, said once. -/

namespace Sys2Proof.Machine

/-- What a read does, by the side of `OUT_BASE` the address is on. -/
theorem memRead_eq (a : Address) (s : State) :
    memRead a s =
      if s.outBase ≤ a then .error (.outputDeviceRead a)
      else
        match s.ram.read a.toNat with
        | some b => .ok b
        | none => .error (.ramOutOfBounds a .read) := by
  by_cases h : s.outBase ≤ a
  · simp [memRead, busRead, route, State.devices, h, Device.read]
  · have h0 : (0#16 : Address) ≤ a := by rw [BitVec.le_def]; exact Nat.zero_le _
    cases hr : s.ram.read a.toNat <;>
      simp [memRead, busRead, route, State.devices, h, h0, hr, Device.read, Device.localIndex, Config.ramBase]

/-- What a write does, by the side of `OUT_BASE` the address is on. -/
theorem memWrite_eq (a : Address) (v : Byte) (s : State) :
    memWrite a v s =
      if s.outBase ≤ a then .ok { s with out := s.out ++ [v] }
      else
        match s.ram.read a.toNat with
        | some _ => .ok { s with ram := s.ram.write a.toNat v }
        | none => .error (.ramOutOfBounds a .write) := by
  by_cases h : s.outBase ≤ a
  · simp [memWrite, busWrite, route, State.devices, h, Device.write]
  · have h0 : (0#16 : Address) ≤ a := by rw [BitVec.le_def]; exact Nat.zero_le _
    cases hr : s.ram.read a.toNat <;>
      simp [memWrite, busWrite, route, State.devices, h, h0, hr, Device.write, Device.localIndex, Config.ramBase]

/-- A read depends on the RAM and on `OUT_BASE` alone. -/
theorem memRead_congr {s t : State} (hr : t.ram = s.ram) (hb : t.outBase = s.outBase) (a : Address) :
    memRead a t = memRead a s := by
  simp [memRead_eq, hr, hb]

/-- What a successful read says. -/
theorem memRead_ok {a : Address} {s : State} {b : Byte} (h : memRead a s = .ok b) :
    ¬ s.outBase ≤ a ∧ s.ram.read a.toNat = some b := by
  rw [memRead_eq] at h
  split at h
  · cases h
  · next hb =>
    split at h
    · next x hx => cases h; exact ⟨hb, hx⟩
    · cases h

theorem memRead_of_ram {a : Address} {s : State} {b : Byte} (ha : ¬ s.outBase ≤ a)
    (h : s.ram.read a.toNat = some b) : memRead a s = .ok b := by
  simp [memRead_eq, ha, h]

/-- What a failed read says. -/
theorem memRead_error {a : Address} {s : State} {e : Fault} (h : memRead a s = .error e) :
    (s.outBase ≤ a ∧ e = .outputDeviceRead a) ∨
    (¬ s.outBase ≤ a ∧ s.ram.read a.toNat = none ∧ e = .ramOutOfBounds a .read) := by
  rw [memRead_eq] at h
  split at h
  · next hb => cases h; exact .inl ⟨hb, rfl⟩
  · next hb =>
    split at h
    · cases h
    · next hx => cases h; exact .inr ⟨hb, hx, rfl⟩

/-- What a successful write says. -/
theorem memWrite_ok {a : Address} {v : Byte} {s t : State} (h : memWrite a v s = .ok t) :
    (s.outBase ≤ a ∧ t = { s with out := s.out ++ [v] }) ∨
    (¬ s.outBase ≤ a ∧ (∃ b, s.ram.read a.toNat = some b) ∧ t = { s with ram := s.ram.write a.toNat v }) := by
  rw [memWrite_eq] at h
  split at h
  · next hb => cases h; exact .inl ⟨hb, rfl⟩
  · next hb =>
    split at h
    · next x hx => cases h; exact .inr ⟨hb, ⟨x, hx⟩, rfl⟩
    · cases h

/-- What a failed write says. -/
theorem memWrite_error {a : Address} {v : Byte} {s : State} {e : Fault} (h : memWrite a v s = .error e) :
    ¬ s.outBase ≤ a ∧ s.ram.read a.toNat = none ∧ e = .ramOutOfBounds a .write := by
  rw [memWrite_eq] at h
  split at h
  · cases h
  · next hb =>
    split at h
    · cases h
    · next hx => cases h; exact ⟨hb, hx, rfl⟩

/-- What a tick with a read can do, when it answers a next state. -/
theorem withRead_next {a : Address} {s t : State} {go : Byte → TickResult} (h : withRead a s go = .next t) :
    (∃ b, memRead a s = .ok b ∧ go b = .next t) ∨ (∃ e, memRead a s = .error e ∧ t = s.raise e) := by
  unfold withRead at h
  split at h
  · next b hb => exact .inl ⟨b, hb, h⟩
  · next e he => cases h; exact .inr ⟨e, he, rfl⟩

/-- What a tick with a write can do, when it answers a next state. -/
theorem withWrite_next {a : Address} {v : Byte} {s t : State} {go : State → TickResult}
    (h : withWrite a v s go = .next t) :
    (∃ u, memWrite a v s = .ok u ∧ go u = .next t) ∨ (∃ e, memWrite a v s = .error e ∧ t = s.raise e) := by
  unfold withWrite at h
  split at h
  · next u hu => exact .inl ⟨u, hu, h⟩
  · next e he => cases h; exact .inr ⟨e, he, rfl⟩

theorem withRead_ok {a : Address} {s : State} {b : Byte} (h : memRead a s = .ok b) (go : Byte → TickResult) :
    withRead a s go = go b := by
  simp [withRead, h]

theorem withRead_error {a : Address} {s : State} {e : Fault} (h : memRead a s = .error e) (go : Byte → TickResult) :
    withRead a s go = .next (s.raise e) := by
  simp [withRead, h]

end Sys2Proof.Machine
end

