-- ==== Sys2Proof/Laws/PerInstr.lean ====
section
/-! SUPPORT. The statements made per instruction. -/

namespace Sys2Proof.Laws

/-- The encoding of an instruction has the direct format: three bytes, of which the first looks up to the
instruction's own behaviour (R60, R66). -/
def EncodesInTheDirectFormat.Statement (i : Instr) : Prop :=
  (encode i).length = Config.instrSize ∧
    ((encode i).head?.bind lookupOpcode) = some i.operation ∧ i.operation.instr i.operand = i

theorem EncodesInTheDirectFormat.loadDirect (a16 : Address) :
    EncodesInTheDirectFormat.Statement (.loadDirect a16) :=
  ⟨rfl, rfl, rfl⟩

theorem EncodesInTheDirectFormat.storeDirect (a16 : Address) :
    EncodesInTheDirectFormat.Statement (.storeDirect a16) :=
  ⟨rfl, rfl, rfl⟩

theorem EncodesInTheDirectFormat.addDirect (a16 : Address) :
    EncodesInTheDirectFormat.Statement (.addDirect a16) :=
  ⟨rfl, rfl, rfl⟩

theorem EncodesInTheDirectFormat.branchIfZeroSet (a16 : Address) :
    EncodesInTheDirectFormat.Statement (.branchIfZeroSet a16) :=
  ⟨rfl, rfl, rfl⟩

end Sys2Proof.Laws
end

