-- ==== Sys2Proof/Laws/Tick.lean ====
section
/-! SUPPORT. Everything a tick can do, said once: `TickCase s t` lists the cases of a tick that takes `s` to `t`, each with
its guards. -/

namespace Sys2Proof.Laws

open Sys2Proof.Machine

/-- The cases of a tick that answers a next state. -/
inductive TickCase (s : State) : State → Prop
  | halted (hf : s.fault ≠ none) : TickCase s s
  | idle (hf : s.fault = none) (htc : s.tc = 0) : TickCase s s.advance
  | fetchFails (hf : s.fault = none) (htc : s.tc = 1) (e : Fault) (hr : memRead s.pc s = .error e) :
      TickCase s (s.raise e)
  | unknownOpcode (hf : s.fault = none) (htc : s.tc = 1) (b : Byte) (hr : memRead s.pc s = .ok b)
      (hb : lookupOpcode b = none) : TickCase s (s.raise (.unknownOpcode s.pc b))
  | fetch (hf : s.fault = none) (htc : s.tc = 1) (b : Byte) (op : Operation) (hr : memRead s.pc s = .ok b)
      (hb : lookupOpcode b = some op) : TickCase s ({ s with cur := some op } : State).advance
  | addrLowFails (hf : s.fault = none) (htc : s.tc = 2) (op : Operation) (hc : s.cur = some op) (e : Fault)
      (hr : memRead (lowByteAddress s.pc) s = .error e) : TickCase s (s.raise e)
  | addrLow (hf : s.fault = none) (htc : s.tc = 2) (op : Operation) (hc : s.cur = some op) (lo : Byte)
      (hr : memRead (lowByteAddress s.pc) s = .ok lo) :
      TickCase s ({ s with index := assembleLow lo } : State).advance
  | addrHighFails (hf : s.fault = none) (htc : s.tc = 3) (op : Operation) (hc : s.cur = some op) (e : Fault)
      (hr : memRead (highByteAddress s.pc) s = .error e) : TickCase s (s.raise e)
  | addrHigh (hf : s.fault = none) (htc : s.tc = 3) (op : Operation) (hc : s.cur = some op) (hi : Byte)
      (hr : memRead (highByteAddress s.pc) s = .ok hi) :
      TickCase s ({ s with index := assembleHigh s.index hi } : State).advance
  | loadFails (hf : s.fault = none) (htc : s.tc = 4) (hc : s.cur = some .loadDirect) (e : Fault)
      (hr : memRead s.index s = .error e) : TickCase s (s.raise e)
  | load (hf : s.fault = none) (htc : s.tc = 4) (hc : s.cur = some .loadDirect) (b : Byte)
      (hr : memRead s.index s = .ok b) : TickCase s (({ s with acc := b } : State).complete (nextPc s.pc))
  | storeFails (hf : s.fault = none) (htc : s.tc = 4) (hc : s.cur = some .storeDirect) (e : Fault)
      (hw : memWrite s.index s.acc s = .error e) : TickCase s (s.raise e)
  | store (hf : s.fault = none) (htc : s.tc = 4) (hc : s.cur = some .storeDirect) (u : State)
      (hw : memWrite s.index s.acc s = .ok u) : TickCase s (u.complete (nextPc s.pc))
  | addReadFails (hf : s.fault = none) (htc : s.tc = 4) (hc : s.cur = some .addDirect) (e : Fault)
      (hr : memRead s.index s = .error e) : TickCase s (s.raise e)
  | addRead (hf : s.fault = none) (htc : s.tc = 4) (hc : s.cur = some .addDirect) (b : Byte)
      (hr : memRead s.index s = .ok b) : TickCase s ({ s with buffer := b } : State).advance
  | addSum (hf : s.fault = none) (htc : s.tc = 5) (hc : s.cur = some .addDirect) :
      TickCase s (({ s with acc := addBytes s.acc s.buffer } : State).complete (nextPc s.pc))
  | branch (hf : s.fault = none) (htc : s.tc = 4) (hc : s.cur = some .branchIfZeroSet) :
      TickCase s (s.complete (if accIsZero s.acc then s.index else nextPc s.pc))

/-- A tick that answers a next state is one of the cases. -/
theorem tick_cases {s t : State} (h : tick s = .next t) : TickCase s t := by
  unfold tick at h
  split at h
  · next hf => cases h; exact .halted hf
  next hf =>
  replace hf : s.fault = none := by simpa using hf
  split at h
  · next htc => cases h; exact .idle hf htc
  split at h
  · next htc =>
    rcases withRead_next h with ⟨b, hr, hgo⟩ | ⟨e, hr, rfl⟩
    · split at hgo
      · next hb => cases hgo; exact .unknownOpcode hf htc b hr hb
      · next op hb => cases hgo; exact .fetch hf htc b op hr hb
    · exact .fetchFails hf htc e hr
  split at h
  · cases h
  next op hc =>
  unfold executeTick at h
  split at h
  · next htc =>
    rcases withRead_next h with ⟨b, hr, hgo⟩ | ⟨e, hr, rfl⟩
    · cases hgo; exact .addrLow hf htc op hc b hr
    · exact .addrLowFails hf htc op hc e hr
  split at h
  · next htc =>
    rcases withRead_next h with ⟨b, hr, hgo⟩ | ⟨e, hr, rfl⟩
    · cases hgo; exact .addrHigh hf htc op hc b hr
    · exact .addrHighFails hf htc op hc e hr
  cases op with
  | loadDirect =>
    simp only [Operation.instr, exec, execLoadDirect] at h
    split at h
    · next htc =>
      rcases withRead_next h with ⟨b, hr, hgo⟩ | ⟨e, hr, rfl⟩
      · cases hgo; exact .load hf htc hc b hr
      · exact .loadFails hf htc hc e hr
    · cases h
  | storeDirect =>
    simp only [Operation.instr, exec, execStoreDirect] at h
    split at h
    · next htc =>
      rcases withWrite_next h with ⟨u, hw, hgo⟩ | ⟨e, hw, rfl⟩
      · cases hgo; exact .store hf htc hc u hw
      · exact .storeFails hf htc hc e hw
    · cases h
  | addDirect =>
    simp only [Operation.instr, exec, execAddDirect] at h
    split at h
    · next htc =>
      rcases withRead_next h with ⟨b, hr, hgo⟩ | ⟨e, hr, rfl⟩
      · cases hgo; exact .addRead hf htc hc b hr
      · exact .addReadFails hf htc hc e hr
    · split at h
      · next htc => cases h; exact .addSum hf htc hc
      · cases h
  | branchIfZeroSet =>
    simp only [Operation.instr, exec, execBranchIfZeroSet] at h
    split at h
    · next htc => cases h; exact .branch hf htc hc
    · cases h

/-- And conversely: each case is what the tick does. -/
theorem tick_of_case {s t : State} (h : TickCase s t) : tick s = .next t := by
  cases h with
  | halted hf => simp [tick, hf]
  | idle hf htc => simp [tick, hf, htc, idleTick]
  | fetchFails hf htc e hr => simp [tick, hf, htc, fetchTick, withRead_error hr]
  | unknownOpcode hf htc b hr hb => simp [tick, hf, htc, fetchTick, withRead_ok hr, hb]
  | fetch hf htc b op hr hb => simp [tick, hf, htc, fetchTick, withRead_ok hr, hb]
  | addrLowFails hf htc op hc e hr => simp [tick, hf, htc, hc, executeTick, addrLowTick, withRead_error hr]
  | addrLow hf htc op hc lo hr => simp [tick, hf, htc, hc, executeTick, addrLowTick, withRead_ok hr]
  | addrHighFails hf htc op hc e hr => simp [tick, hf, htc, hc, executeTick, addrHighTick, withRead_error hr]
  | addrHigh hf htc op hc hi hr => simp [tick, hf, htc, hc, executeTick, addrHighTick, withRead_ok hr]
  | loadFails hf htc hc e hr =>
    simp [tick, hf, htc, hc, executeTick, Operation.instr, exec, execLoadDirect, withRead_error hr]
  | load hf htc hc b hr =>
    simp [tick, hf, htc, hc, executeTick, Operation.instr, exec, execLoadDirect, withRead_ok hr]
  | storeFails hf htc hc e hw =>
    simp [tick, hf, htc, hc, executeTick, Operation.instr, exec, execStoreDirect, withWrite, hw]
  | store hf htc hc u hw =>
    simp [tick, hf, htc, hc, executeTick, Operation.instr, exec, execStoreDirect, withWrite, hw]
  | addReadFails hf htc hc e hr =>
    simp [tick, hf, htc, hc, executeTick, Operation.instr, exec, execAddDirect, withRead_error hr]
  | addRead hf htc hc b hr =>
    simp [tick, hf, htc, hc, executeTick, Operation.instr, exec, execAddDirect, withRead_ok hr]
  | addSum hf htc hc => simp [tick, hf, htc, hc, executeTick, Operation.instr, exec, execAddDirect]
  | branch hf htc hc => simp [tick, hf, htc, hc, executeTick, Operation.instr, exec, execBranchIfZeroSet]

/-- The first tick of a run, when it answers a next state. -/
theorem run_succ {n : Nat} {s t : State} (h : step s = .next t) : run (n + 1) s = run n t := by
  have h' : Sys2Proof.core.step s = .next t := h
  simp only [run, Host.Core.run, h']
  rfl

@[simp] theorem run_zero (s : State) : run 0 s = .next s := rfl

end Sys2Proof.Laws
end

