-- ==== Sys2Proof/Tests/Slice0.lean ====
section
/-! SUPPORT. The model's own tests: the checks refuse ill-formed terms, words written out from the spec's encoding decode,
one tick of each instruction against the vectors of spec/95_test_vectors.md, and for each statement of
Certificates/Slice0/Obligations.lean that has hypotheses a state and operands that meet them (`witness_<statement>`). -/

namespace Sys2Proof.Tests

open Sys2Proof Sys2Proof.Machine

/-- A launch state with the sequencer set to a point of an instruction. -/
def rig (image : List Byte) (tc : Nat) (cur : Option Operation) : State :=
  { launch 0xF000 image {} with tc := tc, cur := cur }

/-- A launch state with a small `OUT_BASE`, 4, and an image of `L` bytes 0x10, 0x11, …, for the edges of the map. -/
def edge (L : Nat) : State :=
  launch 0x0004 ((List.range L).map fun i => BitVec.ofNat 8 (16 + i)) {}

/-! ## The checks refuse ill-formed terms (no term of `Instr` is ill-formed, R68) -/

theorem test_legalWord_refuses_zero_opcode : legalWord 0xFFFF00 = false := by decide
theorem test_legalWord_refuses_opcode_five : legalWord 0x000005 = false := by decide
theorem test_legalOutBase_refuses_zero : legalOutBase 0x0000 = false := by decide
theorem test_legalSequencer_refuses_no_instruction : legalSequencer 2 none = false := by decide
theorem test_legalSequencer_refuses_fifth_tick_of_load : legalSequencer 5 (some .loadDirect) = false := by decide
theorem test_legalSequencer_refuses_sixth_tick : legalSequencer 6 (some .addDirect) = false := by decide
theorem test_memory_wf_refuses_a_gap : ¬ Memory.wf [(0, 0x01), (2, 0x02)] := by decide
theorem test_memory_wf_refuses_disorder : ¬ Memory.wf [(1, 0x01), (0, 0x02)] := by decide

/-! ## Decoding: words written out from 30_encoding.md R60 and R66, operand bits unequal in each half -/

theorem test_decode_loadDirect :
    decodeTableWord 24 0b000000100000000100000001 = some (.loadDirect 0x0201) := by decide
theorem test_decode_storeDirect :
    decodeTableWord 24 0b111100010010001100000010 = some (.storeDirect 0xF123) := by decide
theorem test_decode_addDirect :
    decodeTableWord 24 0b100000000111111100000011 = some (.addDirect 0x807F) := by decide
theorem test_decode_branchIfZeroSet :
    decodeTableWord 24 0b000000001111111100000100 = some (.branchIfZeroSet 0x00FF) := by decide
theorem test_decode_refuses_before_operands : decode [0x05] = .error (.unknownOpcode 0x05) := by decide
theorem test_decode_truncated : decode [0x01, 0x05] = .error (.truncated 2) := by decide
theorem test_encode_storeDirect : encode (.storeDirect 0xF123) = [0x02, 0x23, 0xF1] := by decide
theorem test_no_word_selects_two_rows :
    opcodeTable.Pairwise fun a b => a.mask = b.mask ∧ a.pattern ≠ b.pattern := by decide

/-! ## One tick of each instruction -/

/-- 95_test_vectors.md V-L2: the address is little-endian (the image is cut to the bytes the tick reads). -/
theorem test_loadDirect :
    step { rig [0x01, 0x03, 0x00, 0xAA] 4 (some .loadDirect) with index := 0x0003, acc := 0x77 } =
      .next { rig [0x01, 0x03, 0x00, 0xAA] 0 (some .loadDirect) with index := 0x0003, acc := 0xAA, pc := 0x0003 } := by
  rfl

/-- V-L6: a read of the output range is fatal and writes nothing else. -/
theorem test_loadDirect_output_range :
    step { rig [0x01, 0x00, 0xF0] 4 (some .loadDirect) with index := 0xF000 } =
      .next { rig [0x01, 0x00, 0xF0] 4 (some .loadDirect) with
        index := 0xF000, fault := some (.outputDeviceRead 0xF000) } := by
  rfl

/-- V-S3: a store over the instruction's own low operand byte. -/
theorem test_storeDirect_over_itself :
    step { rig [0x02, 0x01, 0x00] 4 (some .storeDirect) with index := 0x0001, acc := 0x07 } =
      .next { rig [0x02, 0x07, 0x00] 0 (some .storeDirect) with index := 0x0001, acc := 0x07, pc := 0x0003 } := by
  rfl

/-- V-S2: 0xFFFF is an alias of the output port. -/
theorem test_storeDirect_output :
    step { rig [0x02, 0xFF, 0xFF] 4 (some .storeDirect) with index := 0xFFFF, acc := 0x42, out := [0x41] } =
      .next { rig [0x02, 0xFF, 0xFF] 0 (some .storeDirect) with
        index := 0xFFFF, acc := 0x42, out := [0x41, 0x42], pc := 0x0003 } := by
  rfl

/-- V-A2: tick 4 leaves `acc` and `pc` old. -/
theorem test_addDirect_reads :
    step { rig [0x03, 0x03, 0x00, 0x13] 4 (some .addDirect) with index := 0x0003, acc := 0x32 } =
      .next { rig [0x03, 0x03, 0x00, 0x13] 5 (some .addDirect) with index := 0x0003, acc := 0x32, buffer := 0x13 } := by
  rfl

/-- V-A4: 0xFF + 0xFF = 0xFE at tick 5. -/
theorem test_addDirect_wraps :
    step { rig [0x03, 0x03, 0x00, 0xFF] 5 (some .addDirect) with index := 0x0003, acc := 0xFF, buffer := 0xFF } =
      .next { rig [0x03, 0x03, 0x00, 0xFF] 0 (some .addDirect) with
        index := 0x0003, acc := 0xFE, buffer := 0xFF, pc := 0x0003 } := by
  rfl

/-- V-B6: a taken branch does not probe its target. -/
theorem test_branchIfZeroSet_taken :
    step { rig [0x04, 0xFF, 0xFF] 4 (some .branchIfZeroSet) with index := 0xFFFF } =
      .next { rig [0x04, 0xFF, 0xFF] 0 (some .branchIfZeroSet) with index := 0xFFFF, pc := 0xFFFF } := by
  rfl

/-- V-B3: 0x80 is not zero. -/
theorem test_branchIfZeroSet_no_sign_test :
    step { rig [0x04, 0x0F, 0x00] 4 (some .branchIfZeroSet) with index := 0x000F, acc := 0x80 } =
      .next { rig [0x04, 0x0F, 0x00] 0 (some .branchIfZeroSet) with index := 0x000F, acc := 0x80, pc := 0x0003 } := by
  rfl

/-- V-F1: a zero byte is no no-op. -/
theorem test_fetch_zero_is_illegal :
    step (rig [0x00] 1 none) = .next { rig [0x00] 1 none with fault := some (.unknownOpcode 0x0000 0x00) } := by
  rfl

/-- V-F6: the high operand byte beyond the image. -/
theorem test_addrHigh_beyond_image :
    step (rig [0x01, 0x00] 3 (some .loadDirect)) =
      .next { rig [0x01, 0x00] 3 (some .loadDirect) with fault := some (.ramOutOfBounds 0x0002 .read) } := by
  rfl

/-- 93_implementation_defined.md U7: no successor for tick 5 of a LoadDirect. -/
theorem test_no_successor :
    step (rig [0x01, 0x00, 0x00] 5 (some .loadDirect)) = .refused (.noSuccessor 5 (some .loadDirect)) := by
  rfl

/-- R162: the `load` comes before the presets. -/
theorem test_hostLoad_refused_after_a_preset :
    hostCalls [.load [0x00], .preset { acc := some 0x00 }, .load [0x00]] (.construct 0xF000) =
      .refused (.hostAction .load) := by
  rfl

/-- R165: between two instructions `tc` is 0, and a preset is no longer admitted. -/
theorem test_hostPreset_refused_after_an_instruction :
    hostPreset { acc := some 0x33 } ⟨.loaded, rig [0x04, 0x00, 0x00] 0 (some .branchIfZeroSet)⟩ =
      .refused (.hostAction .preset) := by
  rfl

/-- The step after `withFetchWord` on reset runs the word's instruction (here `LoadDirect 0x0002`, its own high byte). -/
theorem test_withFetchWord_runs :
    step (State.reset.withFetchWord 24 0x000201) = exec (.loadDirect 0x0002) (State.reset.withFetchWord 24 0x000201) := by
  rfl

/-! ## Witnesses: states and operands that meet the statements' hypotheses -/

theorem witness_DecodeAfterEncodeIsIdentity : (Instr.branchIfZeroSet 0xFFFF).wellFormed = true := by decide

theorem witness_EncodeAfterDecodeIsIdentity :
    decode [0x04, 0xFF, 0x00, 0x07] = .ok (.branchIfZeroSet 0x00FF, [0x07]) := by decide

theorem witness_IllegalOpcodesHaltAtTheFetchTick :
    ((0x05 : Byte) ≠ 0x01 ∧ (0x05 : Byte) ≠ 0x02 ∧ (0x05 : Byte) ≠ 0x03 ∧ (0x05 : Byte) ≠ 0x04) ∧
      (rig [0x05] 1 none).Running ∧ (rig [0x05] 1 none).tc = 1 ∧ memRead 0x0000 (rig [0x05] 1 none) = .ok 0x05 := by
  decide

theorem witness_AddressTicksAssembleLittleEndian :
    let s := rig [0x01, 0xFF, 0xFE] 2 (some .loadDirect)
    s.Running ∧ s.tc = 2 ∧ s.cur = some .loadDirect ∧ memRead (s.pc + 1) s = .ok 0xFF ∧
      memRead (s.pc + 2) s = .ok 0xFE := by
  decide

/-- A descending list with no device at 0, and an address of each clause: 1 below all, 2 and 3 in the lower range, 4 in
the upper. -/
theorem witness_RouteFindsTheHighestCoveringDevice :
    let ds : List Device := [⟨.charOutput, 0x0004⟩, ⟨.ram, 0x0002⟩]
    ds.Pairwise (fun d e => e.baseOffset < d.baseOffset) ∧ (∀ d ∈ ds, (0x0001 : Address) < d.baseOffset) ∧
      route ds 0x0001 = none ∧ route ds 0x0002 = some ⟨.ram, 0x0002⟩ ∧ route ds 0x0003 = some ⟨.ram, 0x0002⟩ ∧
      route ds 0x0004 = some ⟨.charOutput, 0x0004⟩ := by
  decide

theorem witness_DeviceListIsDescendingAndFixed :
    legalOutBase 0x0001 = true ∧ legalOutBase 0xFFFF = true ∧ run 1 (edge 3) = .next { edge 3 with tc := 1 } :=
  ⟨by decide, by decide, rfl⟩

/-- The last RAM-routed address, and a memory that differs only from `OUT_BASE` on. -/
theorem witness_BusSplitsAtOutBase :
    legalOutBase (edge 6).outBase = true ∧
      memWrite 0x0003 0xAA (edge 6) = .ok { edge 6 with ram := (edge 6).ram.write 3 0xAA } ∧
      memWrite 0x0004 0xAA (edge 6) = .ok { edge 6 with out := [0xAA] } ∧
      ∀ i, i < (edge 6).outBase.toNat → Memory.read ((edge 6).ram.write 5 0xAA) i = (edge 6).ram.read i := by
  decide

/-- The edges of the map: `L - 1`, `L`, `OUT_BASE - 1` and `OUT_BASE`, with L = 2 and `OUT_BASE` = 4. -/
theorem witness_MemReadFollowsTheAddressMap :
    (edge 2).ram.wf ∧ memRead 0x0001 (edge 2) = .ok 0x11 ∧
      memRead 0x0002 (edge 2) = .error (.ramOutOfBounds 0x0002 .read) ∧
      memRead 0x0003 (edge 2) = .error (.ramOutOfBounds 0x0003 .read) ∧
      memRead 0x0004 (edge 2) = .error (.outputDeviceRead 0x0004) := by
  decide

theorem witness_MemWriteFollowsTheAddressMap :
    (edge 2).ram.wf ∧
      memWrite 0x0001 0xAA (edge 2) = .ok { edge 2 with ram := [(0, 0x10), (1, 0xAA)] } ∧
      memWrite 0x0002 0xAA (edge 2) = .error (.ramOutOfBounds 0x0002 .write) ∧
      memWrite 0x0004 0xAA (edge 2) = .ok { edge 2 with out := [0xAA] } := by
  decide

theorem witness_ReadAfterWriteSeesTheWrittenByte :
    memWrite 0x0003 0xAA (edge 6) = .ok { edge 6 with ram := (edge 6).ram.write 3 0xAA } ∧
      (0x0003 : Address) < (edge 6).outBase ∧
      memWrite 0x0004 0xAA (edge 6) = .ok { edge 6 with out := [0xAA] } ∧ (edge 6).outBase ≤ 0x0004 := by
  decide

/-- `OUT_BASE` itself and 0xFFFF; a step that makes OUT grow and one that does not. -/
theorem witness_OutputGrowsOnlyByStoreDirect :
    (edge 0).outBase ≤ 0x0004 ∧ (edge 0).outBase ≤ 0xFFFF ∧
      (∃ t, step { edge 0 with tc := 4, cur := some .storeDirect, index := 0x0004 } = .next t) ∧
      ∃ t, step (edge 0) = .next t :=
  ⟨by decide, by decide, ⟨_, rfl⟩, ⟨_, rfl⟩⟩

theorem witness_RamSizeAndOutBaseNeverChange : ∃ t, run 2 (edge 3) = .next t := ⟨_, rfl⟩

theorem witness_RamAboveOutBaseNeverInterferes :
    (∀ i, i < (edge 6).outBase.toNat → Memory.read ((edge 6).ram.write 5 0xAA) i = (edge 6).ram.read i) ∧
      ∃ t, run 2 (edge 6) = .next t :=
  ⟨by decide, _, rfl⟩

theorem witness_IdleTickOnlyStartsTheNextInstruction :
    (State.reset.Running ∧ State.reset.tc = 0) ∧
      (rig [] 4 (some .branchIfZeroSet)).Running ∧
      ∃ t, step (rig [] 4 (some .branchIfZeroSet)) = .next t ∧ t.Running ∧ t.tc ≠ 4 + 1 :=
  ⟨by decide, by decide, _, rfl, by decide⟩

theorem witness_FetchTickLatchesTheInstruction :
    let s := rig [0x04] 1 none
    s.Running ∧ s.tc = 1 ∧ memRead s.pc s = .ok (opcodeOf .branchIfZeroSet) := by
  decide

theorem witness_AddressTicksWriteOnlyIndex :
    let s := rig [0x01, 0xFF, 0xFE] 2 (some .loadDirect)
    let u := rig [0x01, 0xFF, 0xFE] 3 (some .loadDirect)
    (s.Running ∧ s.cur = some .loadDirect ∧ s.tc = 2 ∧ memRead (s.pc + 1) s = .ok 0xFF) ∧
      u.Running ∧ u.cur = some .loadDirect ∧ u.tc = 3 ∧ memRead (u.pc + 2) u = .ok 0xFE := by
  decide

/-- Idle launch states that hold an instruction (R60). -/
theorem witness_holdsInstr :
    (rig [0x01, 0x03, 0x00, 0x09] 0 none).HoldsInstr (.loadDirect 0x0003) ∧
      (rig [0x02, 0x03, 0x00, 0x09] 0 none).HoldsInstr (.storeDirect 0x0003) ∧
      (rig [0x02, 0x00, 0xF0] 0 none).HoldsInstr (.storeDirect 0xF000) ∧
      (rig [0x03, 0x03, 0x00, 0x13] 0 none).HoldsInstr (.addDirect 0x0003) ∧
      (rig [0x04, 0x00, 0x00] 0 none).HoldsInstr (.branchIfZeroSet 0x0000) :=
  ⟨⟨_, _, _, rfl, rfl, rfl, rfl⟩, ⟨_, _, _, rfl, rfl, rfl, rfl⟩, ⟨_, _, _, rfl, rfl, rfl, rfl⟩,
    ⟨_, _, _, rfl, rfl, rfl, rfl⟩, ⟨_, _, _, rfl, rfl, rfl, rfl⟩⟩

theorem witness_StepRunsTheDecodedInstruction :
    ((rig [0x03, 0x03, 0x00, 0x13] 0 none).Idle ∧
      (rig [0x03, 0x03, 0x00, 0x13] 0 none).HoldsInstr (.addDirect 0x0003)) ∧
      ((rig [] 4 (some .loadDirect)).Running ∧ 4 ≤ (rig [] 4 (some .loadDirect)).tc) ∧
      (rig [] 5 (some .addDirect)).Running ∧ 4 ≤ (rig [] 5 (some .addDirect)).tc :=
  ⟨⟨by decide, witness_holdsInstr.2.2.2.1⟩, by decide, by decide⟩

/-- One instruction of five ticks and the one of six. -/
theorem witness_TickCountsFromIdleAreExact :
    ((rig [0x04, 0x00, 0x00] 0 none).Idle ∧
      (∃ u, SucceedsIn 2 (rig [0x04, 0x00, 0x00] 0 none) u ∧ u.cur = some .branchIfZeroSet) ∧
      ∃ t, SucceedsIn 5 (rig [0x04, 0x00, 0x00] 0 none) t) ∧
      (rig [0x03, 0x03, 0x00, 0x13] 0 none).Idle ∧
      (∃ u, SucceedsIn 2 (rig [0x03, 0x03, 0x00, 0x13] 0 none) u ∧ u.cur = some .addDirect) ∧
      ∃ t, SucceedsIn 6 (rig [0x03, 0x03, 0x00, 0x13] 0 none) t :=
  ⟨⟨by decide, ⟨_, ⟨rfl, rfl⟩, rfl⟩, ⟨_, rfl, rfl⟩⟩, by decide, ⟨_, ⟨rfl, rfl⟩, rfl⟩, ⟨_, rfl, rfl⟩⟩

/-- Two ticks from reset, the second of which latches an error. -/
theorem witness_RunsCompose :
    (∃ t, run 1 State.reset = .next t) ∧ ∃ t, run 2 State.reset = .next t ∧ t.fault ≠ none :=
  ⟨⟨_, rfl⟩, _, rfl, by decide⟩

/-- Running states with a step that counts up, and one that completes. -/
theorem witness_TickCounterCountsUpOrReturnsToZero :
    (State.reset.Running ∧ ∃ t, step State.reset = .next t ∧ t.Running ∧ t.tc ≠ 0) ∧
      (rig [] 5 (some .addDirect)).Running ∧
      ∃ t, step (rig [] 5 (some .addDirect)) = .next t ∧ t.Running ∧ t.tc = 0 :=
  ⟨⟨by decide, _, rfl, by decide⟩, by decide, _, rfl, by decide⟩

theorem witness_PcChangesInTwoWaysOnly :
    (State.reset.Running ∧ ∃ t, step State.reset = .next t ∧ t.Running) ∧
      (rig [] 4 (some .branchIfZeroSet)).Running ∧
      ∃ t, step (rig [] 4 (some .branchIfZeroSet)) = .next t ∧ t.Running :=
  ⟨⟨by decide, _, rfl, by decide⟩, by decide, _, rfl, by decide⟩

theorem witness_ArchitecturalStateWaitsForCompletion : ∃ t, step State.reset = .next t ∧ t.tc ≠ 0 :=
  ⟨_, rfl, by decide⟩

/-- A step that writes `buffer`, the one that reads it, and one outside AddDirect's tick 5. -/
theorem witness_BufferIsPrivateToAddDirect :
    ((rig [0x03, 0x00, 0x00] 4 (some .addDirect)).Running ∧
      memRead 0x0000 (rig [0x03, 0x00, 0x00] 4 (some .addDirect)) = .ok 0x03 ∧
      ∃ t, step { rig [0x03, 0x00, 0x00] 4 (some .addDirect) with buffer := 0xFF } = .next t ∧ t.buffer ≠ 0xFF) ∧
      ((rig [] 5 (some .addDirect)).Running ∧ ∃ t, step (rig [] 5 (some .addDirect)) = .next t) ∧
      ¬ (State.reset.tc = 5 ∧ State.reset.cur = some .addDirect) ∧ ∃ t, step State.reset = .next t :=
  ⟨⟨by decide, by decide, _, rfl, by decide⟩, ⟨by decide, _, rfl⟩, by decide, _, rfl⟩

/-- The steps that write or read `acc`, and one that does neither. -/
theorem witness_AccIsUsedOnlyByOwnTicks :
    ((rig [0x01, 0x00, 0x00] 4 (some .loadDirect)).Running ∧
      memRead 0x0000 (rig [0x01, 0x00, 0x00] 4 (some .loadDirect)) = .ok 0x01 ∧
      ∃ t, step (rig [0x01, 0x00, 0x00] 4 (some .loadDirect)) = .next t ∧ t.acc ≠ 0x00) ∧
      (∃ t, step { rig [] 5 (some .addDirect) with buffer := 0x01 } = .next t ∧ t.acc ≠ 0x00) ∧
      (memWrite 0x0000 0x00 (rig [0x02] 4 (some .storeDirect)) =
          .ok { rig [0x02] 4 (some .storeDirect) with ram := [(0, 0x00)] } ∧
        ∃ t, step (rig [0x02] 4 (some .storeDirect)) = .next t ∧ t.Running) ∧
      (∃ t, step (rig [] 4 (some .branchIfZeroSet)) = .next t ∧ t.Running) ∧
      ¬ (State.reset.tc = 4 ∧ (State.reset.cur = some .storeDirect ∨ State.reset.cur = some .branchIfZeroSet)) ∧
      ¬ (State.reset.tc = 5 ∧ State.reset.cur = some .addDirect) ∧ ∃ t, step State.reset = .next t :=
  ⟨⟨by decide, by decide, _, rfl, by decide⟩, ⟨_, rfl, by decide⟩, ⟨by decide, _, rfl, by decide⟩, ⟨_, rfl, by decide⟩, by decide,
    by decide, _, rfl⟩

/-- A bus operation that fails, one that succeeds with `UnknownOpcode` after it, and none. -/
theorem witness_EachTickActsThroughItsBusOperation :
    ((rig [] 1 none).Running ∧ ∃ t, step (rig [] 1 none) = .next t ∧ t.fault ≠ none) ∧
      ((rig [0x00] 1 none).Running ∧ ∃ t, step (rig [0x00] 1 none) = .next t ∧ t.fault ≠ none) ∧
      State.reset.Running ∧ ∃ t, step State.reset = .next t ∧ t.fault = none :=
  ⟨⟨by decide, _, rfl, by decide⟩, ⟨by decide, _, rfl, by decide⟩, by decide, _, rfl, by decide⟩

theorem witness_LoadDirectLoadsTheByte :
    ({ edge 6 with tc := 4 } : State).tc = 4 ∧ memRead 0x0003 { edge 6 with tc := 4 } = .ok 0x13 := by
  decide

/-- The last RAM-routed address and `OUT_BASE`. -/
theorem witness_StoreDirectWritesTheAccumulator :
    ({ edge 6 with tc := 4 } : State).tc = 4 ∧ (edge 6).outBase ≤ 0x0004 ∧ (0x0003 : Address) < (edge 6).outBase ∧
      (edge 6).ram.read 3 = some 0x13 := by
  decide

theorem witness_AddDirectReadsThenAdds :
    ({ edge 6 with tc := 4 } : State).tc = 4 ∧ memRead 0x0003 { edge 6 with tc := 4 } = .ok 0x13 ∧
      ({ edge 6 with tc := 5 } : State).tc = 5 := by
  decide

theorem witness_BranchIfZeroSetWritesPc :
    ({ edge 0 with tc := 4 } : State).tc = 4 ∧ ({ edge 0 with tc := 4 } : State).acc = 0x00 ∧
      ({ edge 0 with tc := 4, acc := 0x01 } : State).acc ≠ 0x00 := by
  decide

/-- `L` and `OUT_BASE - 1` beyond the image, and `OUT_BASE`. -/
theorem witness_DataAccessErrorsLatchAndWriteNothing :
    ({ edge 2 with tc := 4 } : State).tc = 4 ∧ (edge 2).outBase ≤ 0x0004 ∧
      ((0x0002 : Address) < (edge 2).outBase ∧ (edge 2).ram.read 2 = none) ∧
      (0x0003 : Address) < (edge 2).outBase ∧ (edge 2).ram.read 3 = none := by
  decide

theorem witness_InstructionsHaveOnlyTheirOwnTicks :
    (edge 0).tc ≠ 4 ∧ ¬ ((edge 0).tc = 5 ∧ (Instr.addDirect 0x0000).operation = .addDirect) ∧
      ({ edge 0 with tc := 5 } : State).tc ≠ 4 ∧
      ¬ (({ edge 0 with tc := 5 } : State).tc = 5 ∧ (Instr.loadDirect 0x0000).operation = .addDirect) := by
  decide

theorem witness_NonStoringInstructionsFrame :
    (∀ a, Instr.addDirect 0x0003 ≠ .storeDirect a) ∧
      (∃ t, exec (.addDirect 0x0003) { edge 6 with tc := 4 } = .next t ∧ t.fault = none) ∧
      (∃ t, exec (.addDirect 0x0003) { edge 6 with tc := 5 } = .next t) ∧
      (∃ t, exec (.loadDirect 0x0003) { edge 6 with tc := 4 } = .next t ∧ t.fault = none) ∧
      ∃ t, exec (.branchIfZeroSet 0x0003) { edge 6 with tc := 4 } = .next t :=
  ⟨nofun, ⟨_, rfl, by decide⟩, ⟨_, rfl⟩, ⟨_, rfl, by decide⟩, ⟨_, rfl⟩⟩

theorem witness_StoreDirectFrame :
    (∃ t, exec (.storeDirect 0x0003) { edge 6 with tc := 4 } = .next t ∧ t.fault = none) ∧
      (0x0003 : Address) < (edge 6).outBase ∧
      (∃ t, exec (.storeDirect 0x0004) { edge 6 with tc := 4 } = .next t ∧ t.fault = none) ∧
      (edge 6).outBase ≤ 0x0004 :=
  ⟨⟨_, rfl, by decide⟩, by decide, ⟨_, rfl, by decide⟩, by decide⟩

theorem witness_LoadDirectFromIdle :
    (rig [0x01, 0x03, 0x00, 0x09] 0 none).Idle ∧
      (rig [0x01, 0x03, 0x00, 0x09] 0 none).HoldsInstr (.loadDirect 0x0003) ∧
      memRead 0x0003 (rig [0x01, 0x03, 0x00, 0x09] 0 none) = .ok 0x09 :=
  ⟨by decide, witness_holdsInstr.1, by decide⟩

/-- The RAM form and the output form. -/
theorem witness_StoreDirectFromIdle :
    ((rig [0x02, 0x03, 0x00, 0x09] 0 none).Idle ∧
      (rig [0x02, 0x03, 0x00, 0x09] 0 none).HoldsInstr (.storeDirect 0x0003) ∧
      memRead 0x0003 (rig [0x02, 0x03, 0x00, 0x09] 0 none) = .ok 0x09) ∧
      (rig [0x02, 0x00, 0xF0] 0 none).Idle ∧ (rig [0x02, 0x00, 0xF0] 0 none).HoldsInstr (.storeDirect 0xF000) ∧
      (rig [0x02, 0x00, 0xF0] 0 none).outBase ≤ 0xF000 :=
  ⟨⟨by decide, witness_holdsInstr.2.1, by decide⟩, by decide, witness_holdsInstr.2.2.1, by decide⟩

theorem witness_AddDirectFromIdle :
    (rig [0x03, 0x03, 0x00, 0x13] 0 none).Idle ∧
      (rig [0x03, 0x03, 0x00, 0x13] 0 none).HoldsInstr (.addDirect 0x0003) ∧
      memRead 0x0003 (rig [0x03, 0x03, 0x00, 0x13] 0 none) = .ok 0x13 :=
  ⟨by decide, witness_holdsInstr.2.2.2.1, by decide⟩

theorem witness_BranchIfZeroSetFromIdle :
    (rig [0x04, 0x00, 0x00] 0 none).Idle ∧ (rig [0x04, 0x00, 0x00] 0 none).HoldsInstr (.branchIfZeroSet 0x0000) :=
  ⟨by decide, witness_holdsInstr.2.2.2.2⟩

/-- A store over the low operand byte of the next instruction, and one over the high one. -/
theorem witness_NextInstructionSeesTheStoredOperand :
    let s := { rig [0x02, 0x04, 0x00, 0x01, 0x00, 0x00] 4 (some .storeDirect) with index := 0x0004 }
    let u := { rig [0x02, 0x05, 0x00, 0x01, 0x07, 0x00] 4 (some .storeDirect) with index := 0x0005 }
    (s.Running ∧ s.tc = 4 ∧ s.cur = some .storeDirect ∧ memRead s.index s = .ok 0x00 ∧
        memRead (s.pc + 3) s = .ok (opcodeOf .loadDirect) ∧ s.index = s.pc + 3 + 1) ∧
      u.Running ∧ u.tc = 4 ∧ u.cur = some .storeDirect ∧ memRead u.index u = .ok 0x00 ∧
        memRead (u.pc + 3) u = .ok (opcodeOf .loadDirect) ∧ u.index = u.pc + 3 + 2 ∧
        memRead (u.pc + 3 + 1) u = .ok 0x07 := by
  decide

/-- Each of the instruction's own three bytes. -/
theorem witness_StoreOverItselfStillCompletes :
    ((rig [0x02, 0x00, 0x00] 0 none).Idle ∧ (rig [0x02, 0x00, 0x00] 0 none).HoldsInstr (.storeDirect 0x0000)) ∧
      ((rig [0x02, 0x01, 0x00] 0 none).Idle ∧ (rig [0x02, 0x01, 0x00] 0 none).HoldsInstr (.storeDirect 0x0001)) ∧
      (rig [0x02, 0x02, 0x00] 0 none).Idle ∧ (rig [0x02, 0x02, 0x00] 0 none).HoldsInstr (.storeDirect 0x0002) :=
  ⟨⟨by decide, _, _, _, rfl, rfl, rfl, rfl⟩, ⟨by decide, _, _, _, rfl, rfl, rfl, rfl⟩, by decide,
    _, _, _, rfl, rfl, rfl, rfl⟩

/-- A state in the middle of the halt idiom's loop, at its last tick. -/
theorem witness_StepStaysInTheHaltLoop : (rig [0x04, 0x00, 0x00] 4 (some .branchIfZeroSet)).InHaltLoop :=
  ⟨rfl, rfl,
    ⟨fun _ => ⟨0x04, rfl, rfl, nofun⟩, fun h => absurd h (by decide), fun _ => ⟨0x00, 0x00, rfl, rfl, by decide⟩,
      fun h => absurd h (by decide)⟩,
    rfl, _, _, _, rfl, rfl, rfl, rfl⟩

theorem witness_SelfBranchRepeatsForever :
    let s := rig [0x04, 0x00, 0x00] 0 none
    (s.Idle ∧ s.acc = 0x00 ∧ s.HoldsInstr (.branchIfZeroSet s.pc)) ∧
      (rig [0x04, 0x00, 0x00] 4 (some .branchIfZeroSet)).InHaltLoop :=
  ⟨⟨by decide, by decide, witness_holdsInstr.2.2.2.2⟩, witness_StepStaysInTheHaltLoop⟩

theorem witness_FatalTickWritesOnlyTheLatch :
    (rig [] 1 none).Running ∧ ∃ t, step (rig [] 1 none) = .next t ∧ t.fault = some (.ramOutOfBounds 0x0000 .read) :=
  ⟨by decide, _, rfl, by decide⟩

theorem witness_HaltedMachineNeverChanges :
    ({ edge 0 with fault := some (.outputDeviceRead 0x0004) } : State).fault ≠ none := by
  decide

/-- A tick for each error that can occur. -/
theorem witness_FatalErrorsHaveTheirCause :
    (∃ t, step (rig [0x00] 1 none) = .next t ∧ t.fault = some (.unknownOpcode 0x0000 0x00)) ∧
      (∃ t, step { edge 3 with tc := 4, cur := some .loadDirect, index := 0x0003 } = .next t ∧
        t.fault = some (.ramOutOfBounds 0x0003 .read)) ∧
      (∃ t, step { edge 3 with tc := 4, cur := some .storeDirect, index := 0x0003 } = .next t ∧
        t.fault = some (.ramOutOfBounds 0x0003 .write)) ∧
      ∃ t, step { edge 3 with tc := 4, cur := some .addDirect, index := 0x0004 } = .next t ∧
        t.fault = some (.outputDeviceRead 0x0004) :=
  ⟨⟨_, rfl, by decide⟩, ⟨_, rfl, by decide⟩, ⟨_, rfl, by decide⟩, ⟨_, rfl, by decide⟩⟩

/-- A state that is refused, at the first `tc` without a successor. -/
theorem witness_StepRefusesOnlyUnreachedSequencerStates :
    (rig [] 2 none).Running ∧ legalSequencer (rig [] 2 none).tc (rig [] 2 none).cur = false ∧
      step (rig [] 2 none) = .refused (.noSuccessor 2 none) :=
  ⟨by decide, by decide, rfl⟩

theorem witness_StepKeepsWellFormedStates :
    (rig [0x01, 0x02, 0x00] 4 (some .loadDirect)).Wf ∧
      ∃ t, step { rig [0x01, 0x02, 0x00] 4 (some .loadDirect) with index := 0x0002 } = .next t :=
  ⟨by decide, _, rfl⟩

/-- An instruction in flight at tick 4, whose step then keeps `buffer`'s part of the invariant. -/
theorem witness_StepKeepsInFlightRegisters :
    ({ rig [0x03, 0x02, 0x00] 4 (some .addDirect) with index := 0x0002 } : State).InFlight ∧
      ∃ t, step { rig [0x03, 0x02, 0x00] 4 (some .addDirect) with index := 0x0002 } = .next t ∧ t.tc = 5 :=
  ⟨⟨fun _ => ⟨0x03, rfl, rfl, nofun⟩, fun h => absurd h (by decide), fun _ => ⟨0x02, 0x00, rfl, rfl, by decide⟩,
    fun h => absurd h (by decide)⟩, _, rfl, rfl⟩

theorem witness_LaunchMeetsTheInvariants : legalOutBase 0x0001 = true ∧ legalOutBase 0xFFFF = true := by decide

theorem witness_WellFormedStatesRunForever : (rig [0x01, 0x02, 0x00] 4 (some .loadDirect)).Wf := by decide

theorem witness_EmptyMachineFailsAtItsFirstFetch : legalOutBase 0x0001 = true ∧ legalOutBase 0xFFFF = true := by decide

/-- A run that answers, a session for each refused host action, and admitted calls at the boundary of an empty image. -/
theorem witness_HostActionsFollowTheLaunchSequence :
    (∃ t, run 1 (launch 0xF000 [] {}) = .next t) ∧
      ¬ (⟨.loaded, launch 0xF000 [] {}⟩ : Session).StandsAt .constructed ∧
      ¬ (⟨.constructed, rig [] 4 none⟩ : Session).StandsAt .constructed ∧
      ¬ (Session.construct 0xF000).StandsAt .loaded ∧
      ¬ (⟨.loaded, rig [] 0 (some .loadDirect)⟩ : Session).StandsAt .loaded ∧
      (∃ k, hostLoad [] (.construct 0xF000) = .next k) ∧
      ∃ k, hostPreset {} ⟨.loaded, launch 0xF000 [] {}⟩ = .next k :=
  ⟨⟨_, rfl⟩, by decide, by decide, by decide, by decide, ⟨_, rfl⟩, _, rfl⟩

/-- Calls from construction: none, and the whole sequence. -/
theorem witness_AdmittedCallsReachLaunchedRuns :
    (∃ h, hostCalls [] (.construct 0xF000) = .next h ∧ h.phase = .constructed) ∧
      ∃ h, hostCalls [.load [0x04, 0x00, 0x00], .preset { acc := some 0x02 }, .run 3, .run 2] (.construct 0xF000) =
        .next h ∧ h.phase = .started ∧ h.machine.pc = 0x0003 :=
  ⟨⟨_, rfl, rfl⟩, _, rfl, rfl, rfl⟩

/-- One tick from reset, and a whole instruction, after which `tc` is 0 again. -/
theorem witness_HostWritesEndWithTheFirstTick :
    (∃ t, run 1 State.reset = .next t) ∧
      ∃ t, run 5 (rig [0x04, 0x00, 0x00] 0 none) = .next t ∧ t.tc = 0 ∧ t.fault = none :=
  ⟨⟨_, rfl⟩, _, rfl, rfl, rfl⟩

end Sys2Proof.Tests
end

/-! # The state: what each register is for, and what every step keeps (10_state.md)

Every proof below reads a step through its cases (`TickCase`), or through one of the lemmas made from them. -/

/-! ## Bus accesses and the storage -/

namespace Sys2Proof.Machine

/-- The canonical form is a property of the listed indices alone. -/
theorem Memory.wf_of_indices {m m' : Memory} (hi : m'.map Prod.fst = m.map Prod.fst) (h : m.wf) : m'.wf := by
  have hl : m'.length = m.length := by simpa using congrArg List.length hi
  rw [Memory.wf, hi, hl]
  exact h

@[simp] theorem memRead_raise (a : Address) (e : Fault) (s : State) : memRead a (s.raise e) = memRead a s :=
  memRead_congr rfl rfl a

/-- A write through the bus changes nothing but RAM and OUT. -/
theorem memWrite_frame {a : Address} {v : Byte} {s u : State} (h : memWrite a v s = .ok u) :
    u = { s with ram := u.ram, out := u.out } := by
  rcases memWrite_ok h with ⟨_, rfl⟩ | ⟨_, _, rfl⟩ <;> rfl

theorem memWrite_acc {a : Address} {v : Byte} {s u : State} (h : memWrite a v s = .ok u) : u.acc = s.acc := by
  rw [memWrite_frame h]

theorem memWrite_buffer {a : Address} {v : Byte} {s u : State} (h : memWrite a v s = .ok u) :
    u.buffer = s.buffer := by
  rw [memWrite_frame h]

theorem memWrite_outBase {a : Address} {v : Byte} {s u : State} (h : memWrite a v s = .ok u) :
    u.outBase = s.outBase := by
  rw [memWrite_frame h]

/-- A write through the bus keeps the indices that RAM lists (R38). -/
theorem memWrite_indices {a : Address} {v : Byte} {s u : State} (h : memWrite a v s = .ok u) :
    u.ram.map Prod.fst = s.ram.map Prod.fst := by
  rcases memWrite_ok h with ⟨_, rfl⟩ | ⟨_, _, rfl⟩
  · rfl
  · exact Memory.write_indices ..

/-! ### Other values in `acc` and `buffer` -/

/-- The state with other values in the two data registers that the bus does not see. With `id` for one of the two
functions that register is kept. -/
def State.mapScratch (f g : Byte → Byte) (s : State) : State :=
  { s with acc := f s.acc, buffer := g s.buffer }

theorem memRead_mapScratch (a : Address) (f g : Byte → Byte) (s : State) :
    memRead a (s.mapScratch f g) = memRead a s :=
  memRead_congr rfl rfl a

theorem memWrite_mapScratch (a : Address) (v : Byte) (f g : Byte → Byte) (s : State) :
    memWrite a v (s.mapScratch f g) = (memWrite a v s).map (State.mapScratch f g) := by
  by_cases h : s.outBase ≤ a
  · simp [memWrite_eq, State.mapScratch, h, Except.map]
  · cases hr : s.ram.read a.toNat <;> simp [memWrite_eq, State.mapScratch, h, hr, Except.map]

/-! ### The operand address -/

/-- Adding the shifted high byte is setting it: the low byte's address has no bit there (R42, R83, R84). -/
theorem assembleHigh_assembleLow (lo hi : Byte) :
    assembleHigh (assembleLow lo) hi = directAddress lo hi := by
  have hdisjoint : lo.setWidth 16 &&& (hi.setWidth 16 <<< 8) = 0#16 := by
    ext i hi16
    by_cases h8 : i < 8
    · simp [h8]
    · simp [BitVec.getLsbD_of_ge lo i (not_lt.1 h8)]
  exact BitVec.add_eq_or_of_and_eq_zero _ _ hdisjoint

end Sys2Proof.Machine

/-! ## The sequencer's pairs (R23) -/

namespace Sys2Proof

theorem legalSequencer_none {tc : Nat} : legalSequencer tc none = true ↔ tc ≤ 1 := by
  simp [legalSequencer]

theorem legalSequencer_some {tc : Nat} {op : Operation} :
    legalSequencer tc (some op) = true ↔ tc ≤ 4 ∨ (tc = 5 ∧ op = .addDirect) := by
  cases op <;> simp [legalSequencer]
  omega

theorem legalSequencer_of_le_one {tc : Nat} (h : tc ≤ 1) (cur : Option Operation) :
    legalSequencer tc cur = true := by
  cases cur with
  | none => exact legalSequencer_none.2 h
  | some op => exact legalSequencer_some.2 (.inl (by omega))

end Sys2Proof

/-! ## Everything a step can do -/

namespace Sys2Proof.Laws

open Sys2Proof.Machine

/-- A step answers a next state exactly in the cases of `TickCase`. -/
theorem step_next_iff {s t : State} : step s = .next t ↔ TickCase s t :=
  ⟨tick_cases, tick_of_case⟩

/-- A tick has one next state. -/
theorem TickCase.unique {s t u : State} (ht : TickCase s t) (hu : TickCase s u) : t = u := by
  have h := (tick_of_case ht).symm.trans (tick_of_case hu)
  cases h
  rfl

/-- An instruction has no tick of its own but tick 4, and AddDirect tick 5 (R23). -/
theorem exec_refused {i : Instr} {s : State} (h4 : s.tc ≠ 4) (h5 : ¬ (s.tc = 5 ∧ i.operation = .addDirect)) :
    exec i s = .refused (.noSuccessor s.tc (some i.operation)) := by
  cases i with
  | loadDirect a => simp [exec, execLoadDirect, Instr.operation, h4]
  | storeDirect a => simp [exec, execStoreDirect, Instr.operation, h4]
  | addDirect a =>
    have h5' : s.tc ≠ 5 := fun h => h5 ⟨h, rfl⟩
    simp [exec, execAddDirect, Instr.operation, h4, h5']
  | branchIfZeroSet a => simp [exec, execBranchIfZeroSet, Instr.operation, h4]

/-- A running machine in a pair that R23 does not list is refused by name. -/
theorem step_refused {s : State} (hf : s.Running) (hl : legalSequencer s.tc s.cur = false) :
    step s = .refused (.noSuccessor s.tc s.cur) := by
  cases hc : s.cur with
  | none =>
    have htc : ¬ s.tc ≤ 1 := by simpa [hc, ← legalSequencer_none] using hl
    have h0 : s.tc ≠ 0 := by omega
    have h1 : s.tc ≠ 1 := by omega
    simp [step, tick, hf, h0, h1, hc]
  | some op =>
    have htc : ¬ (s.tc ≤ 4 ∨ (s.tc = 5 ∧ op = .addDirect)) := by simpa [hc, ← legalSequencer_some] using hl
    obtain ⟨h4, h5⟩ := not_or.1 htc
    have hexec : exec (op.instr s.index) s = .refused (.noSuccessor s.tc (some op)) := by
      simpa using exec_refused (i := op.instr s.index) (s := s) (by omega) (by simpa using h5)
    have h0 : s.tc ≠ 0 := by omega
    have h1 : s.tc ≠ 1 := by omega
    have h2 : s.tc ≠ 2 := by omega
    have h3 : s.tc ≠ 3 := by omega
    simp [step, tick, executeTick, hf, h0, h1, h2, h3, hc, hexec]

/-- An instruction's own tick 4 is one of the cases, whatever its bus operation answers. -/
theorem exists_tickCase_of_own_tick {s : State} {op : Operation} (hf : s.Running) (h4 : s.tc = 4)
    (hc : s.cur = some op) : ∃ t, TickCase s t := by
  cases op with
  | loadDirect =>
    cases hr : memRead s.index s with
    | ok b => exact ⟨_, .load hf h4 hc b hr⟩
    | error e => exact ⟨_, .loadFails hf h4 hc e hr⟩
  | storeDirect =>
    cases hw : memWrite s.index s.acc s with
    | ok u => exact ⟨_, .store hf h4 hc u hw⟩
    | error e => exact ⟨_, .storeFails hf h4 hc e hw⟩
  | addDirect =>
    cases hr : memRead s.index s with
    | ok b => exact ⟨_, .addRead hf h4 hc b hr⟩
    | error e => exact ⟨_, .addReadFails hf h4 hc e hr⟩
  | branchIfZeroSet => exact ⟨_, .branch hf h4 hc⟩

/-- The fetch tick is one of the cases, whatever it reads. -/
theorem exists_tickCase_of_fetch {s : State} (hf : s.Running) (h1 : s.tc = 1) : ∃ t, TickCase s t := by
  cases hr : memRead s.pc s with
  | error e => exact ⟨_, .fetchFails hf h1 e hr⟩
  | ok b =>
    cases hb : lookupOpcode b with
    | none => exact ⟨_, .unknownOpcode hf h1 b hr hb⟩
    | some op => exact ⟨_, .fetch hf h1 b op hr hb⟩

/-- A running machine in a pair that R23 lists has a next state (R80). -/
theorem exists_tickCase_of_legal {s : State} (hf : s.Running) (hl : legalSequencer s.tc s.cur = true) :
    ∃ t, TickCase s t := by
  by_cases h0 : s.tc = 0
  · exact ⟨_, .idle hf h0⟩
  by_cases h1 : s.tc = 1
  · exact exists_tickCase_of_fetch hf h1
  cases hc : s.cur with
  | none =>
    have htc := legalSequencer_none.1 (hc ▸ hl)
    omega
  | some op =>
    by_cases h2 : s.tc = 2
    · cases hr : memRead (lowByteAddress s.pc) s with
      | ok lo => exact ⟨_, .addrLow hf h2 op hc lo hr⟩
      | error e => exact ⟨_, .addrLowFails hf h2 op hc e hr⟩
    by_cases h3 : s.tc = 3
    · cases hr : memRead (highByteAddress s.pc) s with
      | ok hi => exact ⟨_, .addrHigh hf h3 op hc hi hr⟩
      | error e => exact ⟨_, .addrHighFails hf h3 op hc e hr⟩
    rcases legalSequencer_some.1 (hc ▸ hl) with h4 | ⟨h5, rfl⟩
    · exact exists_tickCase_of_own_tick hf (by omega) hc
    · exact ⟨_, .addSum hf h5 hc⟩

/-- The two answers of a step: a next state, or the refusal by name of a running machine in a pair that R23 does not list. -/
theorem step_next_or_refused (s : State) :
    (∃ t, step s = .next t) ∨
      (s.Running ∧ legalSequencer s.tc s.cur = false ∧ step s = .refused (.noSuccessor s.tc s.cur)) := by
  by_cases hf : s.Running
  · cases hl : legalSequencer s.tc s.cur with
    | true =>
      obtain ⟨t, ht⟩ := exists_tickCase_of_legal hf hl
      exact .inl ⟨t, step_next_iff.2 ht⟩
    | false => exact .inr ⟨hf, rfl, step_refused hf hl⟩
  · exact .inl ⟨s, step_next_iff.2 (.halted hf)⟩

/-! ## What every step keeps -/

/-- RAM keeps the indices it lists (R38). -/
theorem TickCase.ram_indices {s t : State} (h : TickCase s t) : t.ram.map Prod.fst = s.ram.map Prod.fst := by
  cases h with
  | store _ _ _ _ hw => exact (memWrite_indices hw :)
  | _ => rfl

/-- No step writes the parameter `OUT_BASE` (R21). -/
theorem TickCase.outBase_eq {s t : State} (h : TickCase s t) : t.outBase = s.outBase := by
  cases h with
  | store _ _ _ u hw => exact (memWrite_outBase hw :)
  | _ => rfl

/-- Every step leads to a pair that R23 lists. -/
theorem TickCase.keeps_legalSequencer {s t : State} (h : TickCase s t) (hs : legalSequencer s.tc s.cur = true) :
    legalSequencer t.tc t.cur = true := by
  cases h with
  | halted | fetchFails | unknownOpcode | addrLowFails | addrHighFails | loadFails | storeFails | addReadFails =>
    exact hs
  | idle _ htc => exact legalSequencer_of_le_one (by simp [htc]) _
  | fetch _ htc => exact legalSequencer_some.2 (.inl (by simp [htc]))
  | addrLow _ htc op hc | addrHigh _ htc op hc =>
    simp [htc, hc, legalSequencer_some]
  | addRead _ htc hc => simp [htc, hc, legalSequencer_some]
  | load | store | addSum | branch => exact legalSequencer_of_le_one (Nat.zero_le 1) _

/-- Every step keeps the well-formed states. -/
theorem TickCase.keeps_wf {s t : State} (h : TickCase s t) (hs : s.Wf) : t.Wf := by
  obtain ⟨hram, hseq, hbase⟩ := hs
  exact ⟨Memory.wf_of_indices h.ram_indices hram, h.keeps_legalSequencer hseq, h.outBase_eq ▸ hbase⟩

/-- What holds of a state and is kept by every step holds after a run. -/
theorem run_keeps {P : State → Prop} (hstep : ∀ s t, P s → TickCase s t → P t) {n : Nat} {s t : State}
    (hs : P s) (h : run n s = .next t) : P t := by
  induction n generalizing s with
  | zero => cases h; exact hs
  | succ n ih =>
    rcases step_next_or_refused s with ⟨u, hu⟩ | ⟨_, _, hr⟩
    · rw [run_succ hu] at h
      exact ih (hstep s u hs (step_next_iff.1 hu)) h
    · have hr' : Sys2Proof.core.step s = .refused (.noSuccessor s.tc s.cur) := hr
      simp [run, Host.Core.run, hr'] at h

/-! ## The registers of the instruction in flight -/

/-- Before the fetch tick is done no instruction is in flight. -/
theorem inFlight_of_tc_le_one {s : State} (h : s.tc ≤ 1) : s.InFlight :=
  ⟨fun _ => by omega, fun _ => by omega, fun _ => by omega, fun _ => by omega⟩

/-- A fatal error leaves the registers of the instruction in flight and memory as they are. -/
theorem inFlight_raise {s : State} (e : Fault) (h : s.InFlight) : (s.raise e).InFlight := by
  simpa [State.InFlight] using h

/-- Every step keeps the registers of the instruction in flight in agreement with memory: a tick from 1 to 4 that does
not complete adds what it reads, and a completing tick ends the flight. -/
theorem TickCase.keeps_inFlight {s t : State} (h : TickCase s t) (hs : s.InFlight) : t.InFlight := by
  obtain ⟨hopcode, hlow, hoperand, _⟩ := id hs
  cases h with
  | halted => exact hs
  | fetchFails | unknownOpcode | addrLowFails | addrHighFails | loadFails | storeFails | addReadFails =>
    exact inFlight_raise _ hs
  | idle _ htc => exact inFlight_of_tc_le_one (by simp [htc])
  | load | store | addSum | branch => exact inFlight_of_tc_le_one (Nat.zero_le 1)
  | fetch _ htc b op hr hb =>
    refine ⟨fun _ => ⟨b, (memRead_congr rfl rfl _).trans hr, hb.symm, nofun⟩, ?_, ?_, ?_⟩ <;> simp [htc]
  | addrLow _ htc op hc lo hr =>
    obtain ⟨b, hb, hcur⟩ := hopcode (by omega)
    refine ⟨fun _ => ⟨b, (memRead_congr rfl rfl _).trans hb, hcur⟩,
      fun _ => ⟨lo, (memRead_congr rfl rfl _).trans hr, rfl⟩, ?_, ?_⟩ <;> simp [htc]
  | addrHigh _ htc op hc hi hr =>
    obtain ⟨b, hb, hcur⟩ := hopcode (by omega)
    obtain ⟨lo, hlo, hindex⟩ := hlow htc
    have haddr : assembleHigh s.index hi = directAddress lo hi := by
      rw [hindex, assembleHigh_assembleLow]
    refine ⟨fun _ => ⟨b, (memRead_congr rfl rfl _).trans hb, hcur⟩, ?_,
      fun _ => ⟨lo, hi, (memRead_congr rfl rfl _).trans hlo, (memRead_congr rfl rfl _).trans hr, haddr⟩, ?_⟩ <;>
      simp [htc]
  | addRead _ htc hc b hr =>
    obtain ⟨opcode, hop, hcur⟩ := hopcode (by omega)
    obtain ⟨lo, hi, hlo, hhi, hindex⟩ := hoperand (by omega)
    refine ⟨fun _ => ⟨opcode, (memRead_congr rfl rfl _).trans hop, hcur⟩, ?_,
      fun _ => ⟨lo, hi, (memRead_congr rfl rfl _).trans hlo, (memRead_congr rfl rfl _).trans hhi, hindex⟩,
      fun _ => (memRead_congr rfl rfl _).trans hr⟩
    simp [htc]

/-! ## Which steps read and write `acc` and `buffer` -/

/-- A step that does not read what `f` and `g` change goes the same way from the changed state; a register that the step
writes loses its change. StoreDirect's and BranchIfZeroSet's own ticks read `acc` alone, AddDirect's sum reads both. -/
theorem TickCase.mapScratch {s t : State} {f g : Byte → Byte} (h : TickCase s t)
    (hacc : s.tc = 4 → (s.cur = some .storeDirect ∨ s.cur = some .branchIfZeroSet) → f s.acc = s.acc)
    (hsum : ¬ (s.tc = 5 ∧ s.cur = some .addDirect)) :
    TickCase (s.mapScratch f g) (t.mapScratch f g) ∨
      TickCase (s.mapScratch f g) (t.mapScratch id g) ∨ TickCase (s.mapScratch f g) (t.mapScratch f id) := by
  have hread (a : Address) : memRead a (s.mapScratch f g) = memRead a s := memRead_mapScratch a f g s
  cases h with
  | halted hf => exact .inl (.halted (s := s.mapScratch f g) hf)
  | idle hf htc => exact .inl (.idle (s := s.mapScratch f g) hf htc)
  | fetchFails hf htc e hr => exact .inl (.fetchFails (s := s.mapScratch f g) hf htc e ((hread _).trans hr))
  | unknownOpcode hf htc b hr hb =>
    exact .inl (.unknownOpcode (s := s.mapScratch f g) hf htc b ((hread _).trans hr) hb)
  | fetch hf htc b op hr hb => exact .inl (.fetch (s := s.mapScratch f g) hf htc b op ((hread _).trans hr) hb)
  | addrLowFails hf htc op hc e hr =>
    exact .inl (.addrLowFails (s := s.mapScratch f g) hf htc op hc e ((hread _).trans hr))
  | addrLow hf htc op hc lo hr =>
    exact .inl (.addrLow (s := s.mapScratch f g) hf htc op hc lo ((hread _).trans hr))
  | addrHighFails hf htc op hc e hr =>
    exact .inl (.addrHighFails (s := s.mapScratch f g) hf htc op hc e ((hread _).trans hr))
  | addrHigh hf htc op hc hi hr =>
    exact .inl (.addrHigh (s := s.mapScratch f g) hf htc op hc hi ((hread _).trans hr))
  | loadFails hf htc hc e hr =>
    exact .inl (.loadFails (s := s.mapScratch f g) hf htc hc e ((hread _).trans hr))
  | addReadFails hf htc hc e hr =>
    exact .inl (.addReadFails (s := s.mapScratch f g) hf htc hc e ((hread _).trans hr))
  | load hf htc hc b hr =>
    exact .inr (.inl (.load (s := s.mapScratch f g) hf htc hc b ((hread _).trans hr)))
  | addRead hf htc hc b hr =>
    exact .inr (.inr (.addRead (s := s.mapScratch f g) hf htc hc b ((hread _).trans hr)))
  | storeFails hf htc hc e hw =>
    have hw' : memWrite s.index (f s.acc) (s.mapScratch f g) = .error e := by
      rw [hacc htc (.inl hc), memWrite_mapScratch, hw]; rfl
    exact .inl (.storeFails (s := s.mapScratch f g) hf htc hc e hw')
  | store hf htc hc u hw =>
    have hw' : memWrite s.index (f s.acc) (s.mapScratch f g) = .ok (u.mapScratch f g) := by
      rw [hacc htc (.inl hc), memWrite_mapScratch, hw]; rfl
    exact .inl (.store (s := s.mapScratch f g) hf htc hc _ hw')
  | addSum _ htc hc => exact absurd ⟨htc, hc⟩ hsum
  | branch hf htc hc =>
    have hbranch := TickCase.branch (s := s.mapScratch f g) hf htc hc
    rw [show (s.mapScratch f g).acc = s.acc from hacc htc (.inr hc)] at hbranch
    exact .inl hbranch

/-- Only AddDirect's tick 4 writes `buffer`, with the byte it reads (R14). -/
theorem TickCase.buffer_written {s t : State} (h : TickCase s t) :
    t.buffer = s.buffer ∨ (s.Running ∧ s.tc = 4 ∧ s.cur = some .addDirect ∧ memRead s.index s = .ok t.buffer) := by
  cases h with
  | addRead hf htc hc b hr => exact .inr ⟨hf, htc, hc, hr⟩
  | store _ _ _ u hw => exact .inl (memWrite_buffer hw :)
  | _ => exact .inl rfl

/-- Only LoadDirect's tick 4 and AddDirect's tick 5 write `acc` (R12). -/
theorem TickCase.acc_written {s t : State} (h : TickCase s t) :
    t.acc = s.acc ∨
      (s.Running ∧ s.tc = 4 ∧ s.cur = some .loadDirect ∧ memRead s.index s = .ok t.acc) ∨
      (s.Running ∧ s.tc = 5 ∧ s.cur = some .addDirect ∧ t.acc = s.acc + s.buffer) := by
  cases h with
  | load hf htc hc b hr => exact .inr (.inl ⟨hf, htc, hc, hr⟩)
  | addSum hf htc hc => exact .inr (.inr ⟨hf, htc, hc, rfl⟩)
  | store _ _ _ u hw => exact .inl (memWrite_acc hw :)
  | _ => exact .inl rfl

/-- AddDirect's tick 5 leaves the sum in `acc` (R111). -/
theorem TickCase.acc_of_addSum {s t : State} (h : TickCase s t) (hf : s.Running) (htc : s.tc = 5)
    (hc : s.cur = some .addDirect) : t.acc = s.acc + s.buffer := by
  rw [h.unique (.addSum hf htc hc)]
  rfl

/-- BranchIfZeroSet's tick 4 tests `acc` (R120). -/
theorem TickCase.pc_of_branch {s t : State} (h : TickCase s t) (hf : s.Running) (htc : s.tc = 4)
    (hc : s.cur = some .branchIfZeroSet) : t.pc = if s.acc = 0x00 then s.index else s.pc + 3 := by
  rw [h.unique (.branch hf htc hc)]
  simp [accIsZero, nextPc, Config.instrSize]

end Sys2Proof.Laws

/-! ## The statements of 10_state.md -/

namespace Sys2Proof.Proofs

open Sys2Proof Sys2Proof.Machine Sys2Proof.Laws

/-- Settles O26: the writers by the cases of a step, the readers by the simulation `TickCase.mapScratch` with `acc` kept. -/
theorem bufferIsPrivateToAddDirect : Obligations.BufferIsPrivateToAddDirect := by
  refine ⟨fun s t hf hc h => ?_, fun s t h => (step_next_iff.1 h).buffer_written, fun s t x hsum h => ?_⟩
  · have hcase := step_next_iff.1 h
    refine ⟨fun b htc hr => ?_, fun htc => hcase.acc_of_addSum hf htc hc⟩
    rw [hcase.unique (.addRead hf htc hc b hr)]
    rfl
  · simp only [step_next_iff] at h ⊢
    rcases h.mapScratch (f := id) (g := fun _ => x) (fun _ _ => rfl) hsum with h | h | h
    · exact .inr h
    · exact .inr h
    · exact .inl h

/-- Settles O27: the writers by the cases of a step, the readers by the simulation `TickCase.mapScratch` with `buffer`
kept. -/
theorem accIsUsedOnlyByOwnTicks : Obligations.AccIsUsedOnlyByOwnTicks := by
  refine ⟨fun s t hf h => ?_, fun s t h => (step_next_iff.1 h).acc_written, fun s t x hread hsum h => ?_⟩
  · have hcase := step_next_iff.1 h
    refine ⟨fun htc hc b hr => ?_, fun htc hc => hcase.acc_of_addSum hf htc hc, fun htc hc u hw => ?_,
      fun htc hc => hcase.pc_of_branch hf htc hc⟩
    · rw [hcase.unique (.load hf htc hc b hr)]
      rfl
    · rw [hcase.unique (.store hf htc hc u hw)]
      exact ⟨rfl, rfl⟩
  · simp only [step_next_iff] at h ⊢
    have hnoread : s.tc = 4 → (s.cur = some .storeDirect ∨ s.cur = some .branchIfZeroSet) → x = s.acc :=
      fun htc hc => absurd ⟨htc, hc⟩ hread
    rcases h.mapScratch (f := fun _ => x) (g := id) hnoread hsum with h | h | h
    · exact .inr h
    · exact .inl h
    · exact .inr h

/-- Settles O48, from what every case of a step keeps of RAM, of the sequencer's pair and of `OUT_BASE`. -/
theorem stepKeepsWellFormedStates : Obligations.StepKeepsWellFormedStates :=
  fun _ _ hs h => (step_next_iff.1 h).keeps_wf hs

/-- Settles O49, by the cases of a step. -/
theorem stepKeepsInFlightRegisters : Obligations.StepKeepsInFlightRegisters :=
  fun _ _ hs h => (step_next_iff.1 h).keeps_inFlight hs

/-- A well-formed state has a well-formed next state: R23 lists its pair, so it is not refused. -/
theorem exists_wf_step {s : State} (hs : s.Wf) : ∃ t, step s = .next t ∧ t.Wf := by
  obtain ⟨_, hseq, _⟩ := id hs
  rcases step_next_or_refused s with ⟨t, ht⟩ | ⟨_, hl, _⟩
  · exact ⟨t, ht, stepKeepsWellFormedStates s t hs ht⟩
  · simp [hseq] at hl

/-- Settles O51, by induction on the number of ticks with progress at each. -/
theorem wellFormedStatesRunForever : Obligations.WellFormedStatesRunForever := by
  intro n
  induction n with
  | zero => exact fun s hs => ⟨s, run_zero s, hs⟩
  | succ n ih =>
    intro s hs
    obtain ⟨u, hu, huwf⟩ := exists_wf_step hs
    rw [run_succ hu]
    exact ih u huwf

/-- Settles O15: every step keeps RAM's indices and `OUT_BASE`, so every run does. -/
theorem ramSizeAndOutBaseNeverChange : Obligations.RamSizeAndOutBaseNeverChange := by
  intro n s t h
  refine run_keeps (P := fun u => u.ram.map Prod.fst = s.ram.map Prod.fst ∧ u.outBase = s.outBase) ?_ ⟨rfl, rfl⟩ h
  rintro u v ⟨hram, hbase⟩ hcase
  exact ⟨hcase.ram_indices.trans hram, hcase.outBase_eq.trans hbase⟩

/-- Settles O23: a case that halts has no running next state, and of the others four complete. -/
theorem tickCounterCountsUpOrReturnsToZero : Obligations.TickCounterCountsUpOrReturnsToZero := by
  intro s t hs h ht
  cases step_next_iff.1 h with
  | halted hf => exact absurd hs hf
  | fetchFails | unknownOpcode | addrLowFails | addrHighFails | loadFails | storeFails | addReadFails =>
    exact absurd ht (State.not_running_raise _ _)
  | idle | fetch | addrLow | addrHigh | addRead => exact .inl rfl
  | load _ htc hc | store _ htc hc | branch _ htc hc => exact .inr ⟨rfl, .inl ⟨htc, by simp [hc]⟩⟩
  | addSum _ htc hc => exact .inr ⟨rfl, .inr ⟨htc, hc⟩⟩

/-- Settles O47: a step answers a next state or the one refusal. -/
theorem stepRefusesOnlyUnreachedSequencerStates : Obligations.StepRefusesOnlyUnreachedSequencerStates := by
  intro s
  refine ⟨fun f h => ?_, fun r => ⟨fun h => ?_, ?_⟩⟩
  · rcases step_next_or_refused s with ⟨t, ht⟩ | ⟨_, _, hr⟩
    · simp [ht] at h
    · simp [hr] at h
  · rcases step_next_or_refused s with ⟨t, ht⟩ | ⟨hf, hl, hr⟩
    · simp [ht] at h
    · exact ⟨hf, hl, by simpa [hr] using h.symm⟩
  · rintro ⟨hf, hl, rfl⟩
    exact step_refused hf hl

/-- Settles O34, by the instruction's constructor. -/
theorem instructionsHaveOnlyTheirOwnTicks : Obligations.InstructionsHaveOnlyTheirOwnTicks :=
  fun _ _ h4 h5 => exec_refused h4 h5

/-- Reset is the launch of an empty image with the default `OUT_BASE` and no presets. -/
theorem reset_eq_launch : State.reset = launch Config.defaultOutBase [] {} := rfl

/-- A launch state meets both invariants: its RAM is an image, and its sequencer stands at tick 0 (R168). -/
theorem launch_wf_and_inFlight {outBase : Address} (image : List Byte) (p : Presets)
    (hb : legalOutBase outBase = true) :
    (launch outBase image p).Wf ∧ (launch outBase image p).InFlight :=
  ⟨⟨Memory.ofImage_wf image, legalSequencer_of_le_one (Nat.zero_le 1) _, hb⟩, inFlight_of_tc_le_one (Nat.zero_le 1)⟩

/-- Settles O50: reset is a launch state, and every launch state meets both invariants. -/
theorem launchMeetsTheInvariants : Obligations.LaunchMeetsTheInvariants :=
  ⟨reset_eq_launch ▸ launch_wf_and_inFlight [] {} (by decide),
    fun _ image p hb => launch_wf_and_inFlight image p hb⟩

/-- Settles O52: each value stands in the definition of `State.reset`. -/
theorem resetValues : Obligations.ResetValues :=
  ⟨rfl, rfl, rfl, rfl, rfl, rfl, rfl, rfl, rfl, rfl⟩

end Sys2Proof.Proofs

/-! # Memory and the bus: the address map, its accesses, and what lies above `OUT_BASE` (20_memory.md) -/

/-! ## The storage, read index by index -/

namespace Sys2Proof.Machine

/-- A loaded image reads as its own bytes (R49). -/
theorem Memory.read_ofImage (image : List Byte) (i : Nat) : (Memory.ofImage image).read i = image[i]? := by
  simpa [Memory.ofImage] using Memory.read_cellsFrom image 0 i

/-- A write to a listed index of canonical storage sets that byte of the image (R34). -/
theorem Memory.write_bytes {m : Memory} (h : m.wf) {i : Nat} (hi : i < m.bytes.length) (v : Byte) :
    (m.write i v).bytes = m.bytes.set i v := by
  apply List.ext_getElem?
  intro j
  rw [← Memory.read_of_wf (Memory.write_wf h i v)]
  by_cases hj : j = i
  · subst hj
    have hread : m.read j = some m.bytes[j] := by rw [Memory.read_of_wf h, List.getElem?_eq_getElem hi]
    rw [Memory.read_write_same hread, List.getElem?_set_self hi]
  · rw [Memory.read_write_other m hj, Memory.read_of_wf h, List.getElem?_set_ne (Ne.symm hj)]

/-- The two storages read alike at every index below `n`. -/
def Memory.AgreesBelow (n : Nat) (m m' : Memory) : Prop :=
  ∀ i, i < n → m.read i = m'.read i

/-- The two storages read alike at every index from `n` on. -/
def Memory.AgreesFrom (n : Nat) (m m' : Memory) : Prop :=
  ∀ i, n ≤ i → m.read i = m'.read i

theorem Memory.AgreesFrom.refl (n : Nat) (m : Memory) : Memory.AgreesFrom n m m :=
  fun _ _ => rfl

theorem Memory.AgreesFrom.trans {n : Nat} {m₁ m₂ m₃ : Memory} (h : Memory.AgreesFrom n m₁ m₂)
    (h' : Memory.AgreesFrom n m₂ m₃) : Memory.AgreesFrom n m₁ m₃ :=
  fun i hi => (h i hi).trans (h' i hi)

/-- The same write to an index that one of the two storages lists keeps the agreement below `n`. -/
theorem Memory.AgreesBelow.write {n i : Nat} {m m' : Memory} {b : Byte} (h : Memory.AgreesBelow n m m')
    (hi : i < n) (hb : m'.read i = some b) (v : Byte) : Memory.AgreesBelow n (m.write i v) (m'.write i v) := by
  intro j hj
  by_cases hji : j = i
  · subst hji
    rw [Memory.read_write_same ((h j hi).trans hb), Memory.read_write_same hb]
  · rw [Memory.read_write_other m hji, Memory.read_write_other m' hji, h j hj]

/-! ## Arbitration (R36) -/

theorem route_cons (d : Device) (ds : List Device) (a : Address) :
    route (d :: ds) a = if d.baseOffset ≤ a then some d else route ds a := by
  by_cases h : d.baseOffset ≤ a <;> simp [route, h]

theorem route_eq_none {ds : List Device} {a : Address} (h : ∀ d ∈ ds, a < d.baseOffset) : route ds a = none := by
  simpa [route] using h

/-- On a strictly descending list the first covering device is the covering device with the highest base offset. -/
theorem route_eq_some_iff_highest {ds : List Device} (hds : ds.Pairwise fun d e => e.baseOffset < d.baseOffset)
    (a : Address) (d : Device) :
    route ds a = some d ↔
      d ∈ ds ∧ d.baseOffset ≤ a ∧ ∀ e ∈ ds, e.baseOffset ≤ a → e.baseOffset ≤ d.baseOffset := by
  induction ds with
  | nil => simp [route]
  | cons c ds ih =>
    obtain ⟨hc, hds⟩ := List.pairwise_cons.1 hds
    rw [route_cons]
    split
    · next hca =>
      constructor
      · rintro ⟨⟩
        refine ⟨List.mem_cons_self, hca, fun e he _ => ?_⟩
        rcases List.mem_cons.1 he with rfl | he
        · exact BitVec.le_refl _
        · exact BitVec.le_of_lt (hc e he)
      · rintro ⟨hd, _, hmax⟩
        rcases List.mem_cons.1 hd with rfl | hd
        · rfl
        · exact absurd (hmax c List.mem_cons_self hca) (BitVec.not_le.2 (hc d hd))
    · next hca =>
      rw [ih hds]
      constructor
      · rintro ⟨hd, hda, hmax⟩
        refine ⟨List.mem_cons_of_mem c hd, hda, fun e he hea => ?_⟩
        rcases List.mem_cons.1 he with rfl | he
        · exact absurd hea hca
        · exact hmax e he hea
      · rintro ⟨hd, hda, hmax⟩
        rcases List.mem_cons.1 hd with rfl | hd
        · exact absurd hda hca
        · exact ⟨hd, hda, fun e he => hmax e (List.mem_cons_of_mem c he)⟩

/-- The same in R36's other form: the device's range ends below the next higher base offset. -/
theorem route_eq_some_iff_range {ds : List Device} (hds : ds.Pairwise fun d e => e.baseOffset < d.baseOffset)
    (a : Address) (d : Device) :
    route ds a = some d ↔
      d ∈ ds ∧ d.baseOffset ≤ a ∧ ∀ e ∈ ds, d.baseOffset < e.baseOffset → a < e.baseOffset := by
  have hcontra (e : Device) :
      (e.baseOffset ≤ a → e.baseOffset ≤ d.baseOffset) ↔ (d.baseOffset < e.baseOffset → a < e.baseOffset) := by
    rw [← BitVec.not_le, ← BitVec.not_le, not_imp_not]
  simp only [route_eq_some_iff_highest hds, hcontra]

/-- Arbitration over this hardware's device list (R37). -/
theorem route_devices (s : State) (a : Address) :
    route s.devices a = some (if s.outBase ≤ a then ⟨.charOutput, s.outBase⟩ else ⟨.ram, 0x0000⟩) := by
  rw [State.devices, route_cons, route_cons]
  split
  · rfl
  · exact if_pos (BitVec.le_def.2 (Nat.zero_le _))

/-! ## Accesses through the bus -/

/-- The index of an address the bus routes to RAM stands below `OUT_BASE`. -/
theorem toNat_lt_of_not_le {a b : Address} (h : ¬ b ≤ a) : a.toNat < b.toNat :=
  BitVec.lt_def.1 (BitVec.not_le.1 h)

/-- A write from `OUT_BASE` on appends to OUT, whatever the address (R39). -/
theorem memWrite_output {a : Address} {s : State} (h : s.outBase ≤ a) (v : Byte) :
    memWrite a v s = .ok { s with out := s.out ++ [v] } := by
  rw [memWrite_eq, if_pos h]

/-- A write to a listed index below `OUT_BASE` replaces that byte of RAM (R38). -/
theorem memWrite_ram {a : Address} {s : State} {b : Byte} (h : ¬ s.outBase ≤ a)
    (hb : s.ram.read a.toNat = some b) (v : Byte) :
    memWrite a v s = .ok { s with ram := s.ram.write a.toNat v } := by
  rw [memWrite_eq, if_neg h, hb]

/-- A write through the bus leaves the storage from `OUT_BASE` on as it was (R37). -/
theorem memWrite_agreesFrom {a : Address} {v : Byte} {s u : State} (h : memWrite a v s = .ok u) :
    Memory.AgreesFrom s.outBase.toNat u.ram s.ram := by
  rcases memWrite_ok h with ⟨_, rfl⟩ | ⟨ha, _, rfl⟩
  · exact .refl _ _
  · intro i hi
    have hlt := toNat_lt_of_not_le ha
    exact Memory.read_write_other s.ram (by omega) v

/-! ### Other bytes in RAM from `OUT_BASE` on -/

/-- The state with another storage in the RAM device. -/
def State.withRam (m : Memory) (s : State) : State :=
  { s with ram := m }

/-- Reads do not see the storage from `OUT_BASE` on (R37). -/
theorem memRead_withRam {m : Memory} {s : State} (hm : Memory.AgreesBelow s.outBase.toNat m s.ram) (a : Address) :
    memRead a (s.withRam m) = memRead a s := by
  by_cases ha : s.outBase ≤ a
  · simp [memRead_eq, State.withRam, ha]
  · simp [memRead_eq, State.withRam, ha, hm _ (toNat_lt_of_not_le ha)]

/-- A write that fails does so whatever the storage from `OUT_BASE` on. -/
theorem memWrite_error_withRam {m : Memory} {a : Address} {v : Byte} {s : State} {e : Fault}
    (hm : Memory.AgreesBelow s.outBase.toNat m s.ram) (h : memWrite a v s = .error e) :
    memWrite a v (s.withRam m) = .error e := by
  obtain ⟨ha, hnone, rfl⟩ := memWrite_error h
  simp [memWrite_eq, State.withRam, ha, (hm _ (toNat_lt_of_not_le ha)).trans hnone]

/-- A write that succeeds does so whatever the storage from `OUT_BASE` on, and keeps the agreement below it. -/
theorem memWrite_ok_withRam {m : Memory} {a : Address} {v : Byte} {s u : State}
    (hm : Memory.AgreesBelow s.outBase.toNat m s.ram) (h : memWrite a v s = .ok u) :
    ∃ m', memWrite a v (s.withRam m) = .ok (u.withRam m') ∧ Memory.AgreesBelow s.outBase.toNat m' u.ram := by
  rcases memWrite_ok h with ⟨ha, rfl⟩ | ⟨ha, ⟨b, hb⟩, rfl⟩
  · exact ⟨m, memWrite_output (s := s.withRam m) ha v, hm⟩
  · have hlt := toNat_lt_of_not_le ha
    exact ⟨m.write a.toNat v, memWrite_ram (s := s.withRam m) ha ((hm _ hlt).trans hb) v, hm.write hlt hb v⟩

/-! ### The operand address as a number -/

/-- The direct address is little-endian: the low byte first (R42). -/
theorem directAddress_toNat (lo hi : Byte) : (directAddress lo hi).toNat = lo.toNat + 256 * hi.toNat := by
  have hlo := lo.isLt
  have hhi := hi.isLt
  rw [← assembleHigh_assembleLow]
  simp only [assembleHigh, assembleLow, BitVec.toNat_add, BitVec.toNat_setWidth, BitVec.toNat_shiftLeft,
    Nat.shiftLeft_eq]
  omega

end Sys2Proof.Machine

/-! ## Steps, OUT and the storage from `OUT_BASE` on -/

namespace Sys2Proof.Laws

open Sys2Proof.Machine

/-- A run of one tick more that answers a next state is a step and the rest of the run. -/
theorem run_succ_next {n : Nat} {s t : State} (h : run (n + 1) s = .next t) :
    ∃ u, TickCase s u ∧ run n u = .next t := by
  rcases step_next_or_refused s with ⟨u, hu⟩ | ⟨_, _, hr⟩
  · exact ⟨u, step_next_iff.1 hu, (run_succ hu).symm.trans h⟩
  · have hr' : Sys2Proof.core.step s = .refused (.noSuccessor s.tc s.cur) := hr
    simp [run, Host.Core.run, hr'] at h

/-- OUT is appended to by StoreDirect's tick 4 with an address from `OUT_BASE` on, and by no other step (R39). -/
theorem TickCase.out_eq {s t : State} (h : TickCase s t) :
    t.out =
      if s.Running ∧ s.tc = 4 ∧ s.cur = some .storeDirect ∧ s.outBase ≤ s.index then s.out ++ [s.acc] else s.out := by
  split
  · next hs =>
    obtain ⟨hf, htc, hc, hbase⟩ := hs
    rw [h.unique (.store hf htc hc _ (memWrite_output hbase s.acc))]
    rfl
  · next hs =>
    cases h with
    | store hf htc hc u hw =>
      rcases memWrite_ok hw with ⟨hbase, _⟩ | ⟨_, _, rfl⟩
      · exact absurd ⟨hf, htc, hc, hbase⟩ hs
      · rfl
    | _ => rfl

/-- Every step leaves the storage from `OUT_BASE` on as it was. -/
theorem TickCase.ram_agreesFrom {s t : State} (h : TickCase s t) :
    Memory.AgreesFrom s.outBase.toNat t.ram s.ram := by
  cases h with
  | store _ _ _ _ hw => exact (memWrite_agreesFrom hw :)
  | _ => exact .refl _ _

/-- A step from a state with other bytes from `OUT_BASE` on is the same step: its reads answer the same bytes, and its
one write, StoreDirect's, goes to the same index below `OUT_BASE` or to OUT. -/
theorem TickCase.withRam {s t : State} {m : Memory} (h : TickCase s t)
    (hm : Memory.AgreesBelow s.outBase.toNat m s.ram) :
    ∃ m', TickCase (s.withRam m) (t.withRam m') ∧ Memory.AgreesBelow s.outBase.toNat m' t.ram := by
  have hread (a : Address) : memRead a (s.withRam m) = memRead a s := memRead_withRam hm a
  cases h with
  | store hf htc hc u hw =>
    obtain ⟨m', hw', hm'⟩ := memWrite_ok_withRam hm hw
    exact ⟨m', .store (s := s.withRam m) hf htc hc _ hw', hm'⟩
  | storeFails hf htc hc e hw =>
    exact ⟨m, .storeFails (s := s.withRam m) hf htc hc e (memWrite_error_withRam hm hw), hm⟩
  | halted hf => exact ⟨m, .halted (s := s.withRam m) hf, hm⟩
  | idle hf htc => exact ⟨m, .idle (s := s.withRam m) hf htc, hm⟩
  | fetchFails hf htc e hr => exact ⟨m, .fetchFails (s := s.withRam m) hf htc e ((hread _).trans hr), hm⟩
  | unknownOpcode hf htc b hr hb =>
    exact ⟨m, .unknownOpcode (s := s.withRam m) hf htc b ((hread _).trans hr) hb, hm⟩
  | fetch hf htc b op hr hb => exact ⟨m, .fetch (s := s.withRam m) hf htc b op ((hread _).trans hr) hb, hm⟩
  | addrLowFails hf htc op hc e hr =>
    exact ⟨m, .addrLowFails (s := s.withRam m) hf htc op hc e ((hread _).trans hr), hm⟩
  | addrLow hf htc op hc lo hr => exact ⟨m, .addrLow (s := s.withRam m) hf htc op hc lo ((hread _).trans hr), hm⟩
  | addrHighFails hf htc op hc e hr =>
    exact ⟨m, .addrHighFails (s := s.withRam m) hf htc op hc e ((hread _).trans hr), hm⟩
  | addrHigh hf htc op hc hi hr =>
    exact ⟨m, .addrHigh (s := s.withRam m) hf htc op hc hi ((hread _).trans hr), hm⟩
  | loadFails hf htc hc e hr => exact ⟨m, .loadFails (s := s.withRam m) hf htc hc e ((hread _).trans hr), hm⟩
  | load hf htc hc b hr => exact ⟨m, .load (s := s.withRam m) hf htc hc b ((hread _).trans hr), hm⟩
  | addReadFails hf htc hc e hr =>
    exact ⟨m, .addReadFails (s := s.withRam m) hf htc hc e ((hread _).trans hr), hm⟩
  | addRead hf htc hc b hr => exact ⟨m, .addRead (s := s.withRam m) hf htc hc b ((hread _).trans hr), hm⟩
  | addSum hf htc hc => exact ⟨m, .addSum (s := s.withRam m) hf htc hc, hm⟩
  | branch hf htc hc => exact ⟨m, .branch (s := s.withRam m) hf htc hc, hm⟩

/-- The same for a run, with the storage from `OUT_BASE` on of both runs left as it was. -/
theorem run_withRam {n : Nat} {s t : State} {m : Memory} (hm : Memory.AgreesBelow s.outBase.toNat m s.ram)
    (h : run n s = .next t) :
    ∃ m', run n (s.withRam m) = .next (t.withRam m') ∧ Memory.AgreesBelow s.outBase.toNat m' t.ram ∧
      Memory.AgreesFrom s.outBase.toNat m' m ∧ Memory.AgreesFrom s.outBase.toNat t.ram s.ram := by
  induction n generalizing s m with
  | zero => cases h; exact ⟨m, rfl, hm, .refl _ _, .refl _ _⟩
  | succ n ih =>
    obtain ⟨u, hu, hrun⟩ := run_succ_next h
    obtain ⟨m₁, hu₁, hm₁⟩ := hu.withRam hm
    have hbase := hu.outBase_eq
    obtain ⟨m₂, hrun₂, hm₂, habove, habove'⟩ := ih (hbase ▸ hm₁) hrun
    rw [hbase] at hm₂ habove habove'
    exact ⟨m₂, (run_succ (step_next_iff.2 hu₁)).trans hrun₂, hm₂, habove.trans hu₁.ram_agreesFrom,
      habove'.trans hu.ram_agreesFrom⟩

end Sys2Proof.Laws

/-! ## The statements of 20_memory.md -/

namespace Sys2Proof.Proofs

open Sys2Proof Sys2Proof.Machine Sys2Proof.Laws

/-- Settles O16, by induction on the number of ticks: the two runs agree below `OUT_BASE`, where alone the bus looks. -/
theorem ramAboveOutBaseNeverInterferes : Obligations.RamAboveOutBaseNeverInterferes := by
  intro n s t m hm h
  obtain ⟨m', hrun, hbelow, habove, habove'⟩ := run_withRam hm h
  exact ⟨m', hrun, hbelow, fun i hi => ⟨habove i hi, habove' i hi⟩⟩

/-- Settles O6: the two address ticks leave `directAddress lo hi`, whose number `directAddress_toNat` gives. -/
theorem addressTicksAssembleLittleEndian : Obligations.AddressTicksAssembleLittleEndian := by
  refine ⟨fun s op lo hi hf htc hc hlo hhi => ?_, directAddress_toNat⟩
  have haddr : assembleHigh (assembleLow lo) hi = BitVec.ofNat 16 (lo.toNat + 256 * hi.toNat) := by
    rw [assembleHigh_assembleLow, ← directAddress_toNat, BitVec.ofNat_toNat, BitVec.setWidth_eq]
  have hlow := TickCase.addrLow hf htc op hc lo hlo
  have hhigh := TickCase.addrHigh (s := ({ s with index := assembleLow lo } : State).advance) hf (by simp [htc])
    op hc hi ((memRead_congr rfl rfl _).trans hhi)
  rw [run_succ (step_next_iff.2 hlow), run_succ (step_next_iff.2 hhigh), run_zero]
  simp [State.advance, htc, haddr]

/-- Settles O8, from the two characterisations of arbitration. -/
theorem routeFindsTheHighestCoveringDevice : Obligations.RouteFindsTheHighestCoveringDevice := by
  refine fun ds a hds => ⟨route_eq_some_iff_highest hds a, route_eq_some_iff_range hds a, fun d hd s v => ?_,
    fun hnone s v => ?_⟩
  · simp [busRead, busWrite, hd]
  · simp [busRead, busWrite, route_eq_none hnone]

/-- Settles O9: the list is made of `OUT_BASE` alone, which no run changes. -/
theorem deviceListIsDescendingAndFixed : Obligations.DeviceListIsDescendingAndFixed := by
  refine fun s => ⟨rfl, fun hlegal => ?_, fun a v => ⟨rfl, rfl⟩, fun n t h => ?_⟩
  · have hpos : (0 : Address) < s.outBase := (BitVec.pos_iff_ne_zero _).2 (by simpa [legalOutBase] using hlegal)
    simpa [State.devices, Config.ramBase] using hpos
  · obtain ⟨_, hbase⟩ := ramSizeAndOutBaseNeverChange n s t h
    simp [State.devices, hbase]

/-- Settles O10, from `route_devices` and from what accesses see of the storage from `OUT_BASE` on. -/
theorem busSplitsAtOutBase : Obligations.BusSplitsAtOutBase := by
  refine fun s _ => ⟨fun a => ?_, fun a => ?_, ?_, fun a v t h => memWrite_agreesFrom h,
    fun a m hm => memRead_withRam hm a⟩
  · rw [route_devices]
    split <;> simp_all
  · rw [route_devices, ← BitVec.not_le]
    split <;> simp_all
  · have htop : s.outBase ≤ 0xFFFF := BitVec.le_def.2 (Nat.le_of_lt_succ s.outBase.isLt)
    rw [route_devices, if_pos htop]

/-- Settles O11: canonical storage reads as the list of its bytes. -/
theorem memReadFollowsTheAddressMap : Obligations.MemReadFollowsTheAddressMap := by
  intro s a hwf
  rw [memRead_eq, Memory.read_of_wf hwf]
  by_cases hlt : a.toNat < s.ram.bytes.length
  · rw [List.getElem?_eq_getElem hlt, dif_pos hlt]
  · rw [List.getElem?_eq_none (not_lt.1 hlt), dif_neg hlt]

/-- Settles O12: a write to canonical storage leaves the image with that byte set. -/
theorem memWriteFollowsTheAddressMap : Obligations.MemWriteFollowsTheAddressMap := by
  intro s a v hwf
  rw [memWrite_eq, Memory.read_of_wf hwf]
  by_cases hlt : a.toNat < s.ram.bytes.length
  · rw [List.getElem?_eq_getElem hlt, if_pos hlt, ← Memory.write_bytes hwf hlt,
      Memory.ofImage_bytes (Memory.write_wf hwf _ v)]
  · rw [List.getElem?_eq_none (not_lt.1 hlt), if_neg hlt]

/-- Settles O13, by the two ways a write can succeed. -/
theorem readAfterWriteSeesTheWrittenByte : Obligations.ReadAfterWriteSeesTheWrittenByte := by
  intro s t a v h
  rcases memWrite_ok h with ⟨ha, rfl⟩ | ⟨ha, ⟨b, hb⟩, rfl⟩
  · have hsame (x : Address) : memRead x { s with out := s.out ++ [v] } = memRead x s := memRead_congr rfl rfl x
    exact ⟨fun hlt => absurd ha (BitVec.not_le.2 hlt), fun x _ => hsame x, fun _ => hsame⟩
  · refine ⟨fun _ => memRead_of_ram ha (Memory.read_write_same hb v), fun x hx => ?_, fun hle => absurd hle ha⟩
    have hne : x.toNat ≠ a.toNat := fun heq => hx (BitVec.eq_of_toNat_eq heq)
    simp [memRead_eq, Memory.read_write_other s.ram hne]

/-- Settles O14, from the output device's two answers and, for the steps, `TickCase.out_eq`. -/
theorem outputGrowsOnlyByStoreDirect : Obligations.OutputGrowsOnlyByStoreDirect := by
  refine ⟨fun s a v ha => ⟨memWrite_output ha v, fun b hb => ?_⟩, fun s t h => (step_next_iff.1 h).out_eq⟩
  obtain ⟨hnot, _⟩ := memRead_ok hb
  exact hnot ha

/-- Settles O53: RAM is the image by the laws of `Memory.ofImage`, the other fields by the definition of `launch`. -/
theorem launchStateHoldsTheImage : Obligations.LaunchStateHoldsTheImage :=
  fun _ image _ => ⟨Memory.read_ofImage image, Memory.cellsFrom_length 0 image, Memory.cellsFrom_bytes 0 image,
    rfl, rfl, rfl, rfl, rfl, rfl, rfl, rfl, rfl⟩

end Sys2Proof.Proofs

/-! # Encoding (30_encoding.md) -/

/-! ## The two operand bytes -/

namespace Sys2Proof

open Sys2Proof.Machine

theorem lowByte_toNat (a : Address) : (lowByte a).toNat = a.toNat % 256 :=
  BitVec.toNat_setWidth 8 a

theorem highByte_toNat (a : Address) : (highByte a).toNat = a.toNat / 256 := by
  have ha := a.isLt
  simp only [highByte, BitVec.toNat_setWidth, BitVec.toNat_ushiftRight, Nat.shiftRight_eq_div_pow]
  omega

/-- An address is the direct address of its two bytes (R60, R63). -/
@[simp] theorem directAddress_lowByte_highByte (a : Address) : directAddress (lowByte a) (highByte a) = a := by
  apply BitVec.eq_of_toNat_eq
  rw [directAddress_toNat, lowByte_toNat, highByte_toNat, Nat.mod_add_div]

@[simp] theorem lowByte_directAddress (lo hi : Byte) : lowByte (directAddress lo hi) = lo := by
  have hlo := lo.isLt
  apply BitVec.eq_of_toNat_eq
  rw [lowByte_toNat, directAddress_toNat]
  omega

@[simp] theorem highByte_directAddress (lo hi : Byte) : highByte (directAddress lo hi) = hi := by
  have hlo := lo.isLt
  apply BitVec.eq_of_toNat_eq
  rw [highByte_toNat, directAddress_toNat]
  omega

/-! ## The instruction table -/

/-- The illegal opcodes are the bytes that no operation has (R67). -/
theorem lookupOpcode_eq_none {b : Byte} : lookupOpcode b = none ↔ ∀ op, b ≠ opcodeOf op := by
  simp only [Option.eq_none_iff_forall_ne_some, ne_eq, lookupOpcode_eq_some]

theorem lookupOpcode_isSome {b : Byte} : (lookupOpcode b).isSome = true ↔ ∃ op, b = opcodeOf op := by
  simp only [Option.isSome_iff_exists, lookupOpcode_eq_some]

/-- Every operand value is legal with every instruction (R63, R68). -/
@[simp] theorem Instr.wellFormed_eq_true (i : Instr) : i.wellFormed = true := by
  cases i <;> rfl

/-! ## The decoder -/

/-- The decoder refuses an illegal opcode before it looks at a byte after it (R64, R67). -/
theorem decode_of_lookupOpcode_none {b : Byte} (h : lookupOpcode b = none) (rest : List Byte) :
    decode (b :: rest) = .error (.unknownOpcode b) := by
  simp only [decode, h]

/-- The decoder succeeds exactly on three bytes or more, the first of them the instruction's opcode and the next two
its direct address (R60, R66). -/
theorem decode_eq_ok_iff {bytes rest : List Byte} {i : Instr} :
    decode bytes = .ok (i, rest) ↔
      ∃ lo hi, bytes = opcodeOf i.operation :: lo :: hi :: rest ∧ i.operand = directAddress lo hi := by
  constructor
  · intro h
    cases bytes with
    | nil => cases h
    | cons opcode operands =>
      cases hop : lookupOpcode opcode with
      | none =>
        rw [decode_of_lookupOpcode_none hop] at h
        cases h
      | some op =>
        obtain rfl := lookupOpcode_eq_some.1 hop
        match operands with
        | [] | [_] => simp [decode] at h
        | lo :: hi :: _ =>
          simp only [decode, hop] at h
          cases h
          exact ⟨lo, hi, by simp⟩
  · rintro ⟨lo, hi, rfl, ha⟩
    simp [decode, ← ha]

/-- The bytes of an opcode and of an address decode to that operation on that address, whatever follows. -/
theorem decode_opcodeOf_addressBytes (op : Operation) (a : Address) (rest : List Byte) :
    decode (opcodeOf op :: lowByte a :: highByte a :: rest) = .ok (op.instr a, rest) :=
  decode_eq_ok_iff.2 ⟨lowByte a, highByte a, by simp⟩

/-! ## Table words (R61) -/

/-- The bytes of a table word: its low byte, then the two bytes of its upper 16 bits (R61). -/
theorem wordBytes_eq (w : BitVec 24) :
    wordBytes 24 w.toNat =
      [w.extractLsb' 0 8, lowByte (w.extractLsb' 8 16), highByte (w.extractLsb' 8 16)] := by
  have hw : w.toNat % 2 ^ 24 = w.toNat := Nat.mod_eq_of_lt w.isLt
  simp only [wordBytes, hw, List.cons.injEq, and_true]
  refine ⟨?_, ?_, ?_⟩ <;> apply BitVec.eq_of_toNat_eq
  · simp
  · simp only [lowByte_toNat, BitVec.toNat_ofNat, BitVec.extractLsb'_toNat, Nat.shiftRight_eq_div_pow]
    omega
  · simp only [highByte_toNat, BitVec.toNat_ofNat, BitVec.extractLsb'_toNat, Nat.shiftRight_eq_div_pow]
    omega

/-- A table word decodes by its low byte, with its upper 16 bits as the direct address. -/
theorem decodeTableWord_eq (w : BitVec 24) :
    decodeTableWord 24 w.toNat =
      (lookupOpcode (w.extractLsb' 0 8)).map (fun op => op.instr (w.extractLsb' 8 16)) := by
  rw [decodeTableWord, wordBytes_eq]
  cases hop : lookupOpcode (w.extractLsb' 0 8) with
  | none => rw [decode_of_lookupOpcode_none hop]; rfl
  | some op =>
    rw [lookupOpcode_eq_some.1 hop, decode_opcodeOf_addressBytes]; rfl

/-- The words R68 counts are those whose low byte is an opcode. -/
theorem legalWord_iff {w : BitVec 24} :
    legalWord w = true ↔ (lookupOpcode (w.extractLsb' 0 8)).isSome = true := by
  rw [lookupOpcode_isSome, ← BitVec.setWidth_eq_extractLsb' (by decide)]
  simp only [legalWord, Bool.or_eq_true, beq_iff_eq]
  constructor
  · rintro (((h | h) | h) | h)
    exacts [⟨.loadDirect, h⟩, ⟨.storeDirect, h⟩, ⟨.addDirect, h⟩, ⟨.branchIfZeroSet, h⟩]
  · rintro ⟨op, h⟩
    cases op <;> simp [h, opcodeOf]

/-- The operations in the order of the opcode table's rows. -/
def tableOperations : List Operation :=
  [.loadDirect, .storeDirect, .addDirect, .branchIfZeroSet]

/-- The opcode table's row for an operation: the low byte is compared with the operation's opcode. -/
def Operation.tableRow (op : Operation) : TableRow :=
  ⟨op, 0x0000FF, (opcodeOf op).setWidth 24⟩

theorem opcodeTable_eq : opcodeTable = tableOperations.map Operation.tableRow := by decide

/-- The mask 0x0000FF keeps the low byte of a word. -/
theorem and_lowByteMask_eq_iff (w : BitVec 24) (b : Byte) :
    w &&& 0x0000FF = b.setWidth 24 ↔ w.extractLsb' 0 8 = b := by
  have hb := b.isLt
  have hmask : w.toNat &&& 0x0000FF = w.toNat % 2 ^ 8 := Nat.and_two_pow_sub_one_eq_mod w.toNat 8
  have hzext : b.toNat % 16777216 = b.toNat := Nat.mod_eq_of_lt (by omega)
  simp [← BitVec.toNat_inj, hmask, hzext]

/-- A word selects the rows of the operations whose opcode is its low byte. -/
theorem selectedRows_operations (w : BitVec 24) :
    (selectedRows w).map TableRow.operation = tableOperations.filter (w.extractLsb' 0 8 = opcodeOf ·) := by
  rw [selectedRows, opcodeTable_eq, List.filter_map, List.map_map]
  have hid : TableRow.operation ∘ Operation.tableRow = id := rfl
  rw [hid, List.map_id]
  refine List.filter_congr fun op _ => ?_
  simp only [Function.comp, Operation.tableRow, beq_eq_decide, and_lowByteMask_eq_iff]

/-- The table lists each operation once, so a byte is the opcode of the one operation that its lookup answers. -/
theorem tableOperations_filter (b : Byte) :
    tableOperations.filter (b = opcodeOf ·) = (lookupOpcode b).toList := by
  cases hb : lookupOpcode b with
  | none => simpa using fun op _ => lookupOpcode_eq_none.1 hb op
  | some op =>
    obtain rfl := lookupOpcode_eq_some.1 hb
    cases op <;> decide

end Sys2Proof

/-! ## The statements of 30_encoding.md -/

namespace Sys2Proof.Proofs

open Sys2Proof Sys2Proof.Machine Sys2Proof.Laws

/-- Settles O1: the encoding is the opcode of the instruction's operation and the two bytes of its operand. -/
theorem decodeAfterEncodeIsIdentity : Obligations.DecodeAfterEncodeIsIdentity := by
  intro i rest _
  calc decode (encode i ++ rest) = .ok (i.operation.instr i.operand, rest) :=
        decode_opcodeOf_addressBytes i.operation i.operand rest
    _ = .ok (i, rest) := by rw [Instr.operation_instr_operand]

/-- Settles O2: the decoder accepts no other form. -/
theorem encodeAfterDecodeIsIdentity : Obligations.EncodeAfterDecodeIsIdentity := by
  intro bytes rest i h
  obtain ⟨lo, hi, rfl, ha⟩ := decode_eq_ok_iff.1 h
  exact ⟨by simp [encode, ha], i.wellFormed_eq_true⟩

/-- Settles O3: the decoder, the table's rows and R68's count are each read off the lookup of the word's low byte. -/
theorem tableWordsDecodeByTheirLowByte : Obligations.TableWordsDecodeByTheirLowByte := by
  refine fun w => ⟨decodeTableWord_eq w, ?_, ?_⟩
  · rw [selectedRows_operations, tableOperations_filter]
  · rw [decodeTableWord_eq, Option.isSome_map, legalWord_iff]

/-- Settles O5: the lookup of an illegal byte answers none, for the decoder and for the fetch tick. -/
theorem illegalOpcodesHaltAtTheFetchTick : Obligations.IllegalOpcodesHaltAtTheFetchTick := by
  intro b h1 h2 h3 h4
  have hb : lookupOpcode b = none := lookupOpcode_eq_none.2 fun op => by
    cases op
    exacts [h1, h2, h3, h4]
  exact ⟨decode_of_lookupOpcode_none hb, fun s hf htc hr => step_next_iff.2 (.unknownOpcode hf htc b hr hb)⟩

/-- Settles O4, by running the decoder on each of the seven words. -/
theorem scenarioWordsDecodeToTheirInstructions : Obligations.ScenarioWordsDecodeToTheirInstructions :=
  ⟨rfl, rfl, rfl, rfl, rfl, rfl, rfl⟩

end Sys2Proof.Proofs

/-! # The tick engine: runs, the ticks before an instruction's own, and each tick's bus operation (40_tick_engine.md) -/

/-! ## Bus operations (R88) -/

namespace Sys2Proof.Machine

theorem memWrite_fault {a : Address} {v : Byte} {s u : State} (h : memWrite a v s = .ok u) : u.fault = s.fault := by
  rw [memWrite_frame h]

theorem BusOp.perform_none (s : State) : BusOp.none.perform s = .ok (Option.none, s) := rfl

theorem BusOp.perform_read_ok {a : Address} {s : State} {b : Byte} (h : memRead a s = .ok b) :
    (BusOp.read a).perform s = .ok (some b, s) := by
  simp [BusOp.perform, h]

theorem BusOp.perform_read_error {a : Address} {s : State} {e : Fault} (h : memRead a s = .error e) :
    (BusOp.read a).perform s = .error e := by
  simp [BusOp.perform, h]

theorem BusOp.perform_write_ok {a : Address} {v : Byte} {s u : State} (h : memWrite a v s = .ok u) :
    (BusOp.write a v).perform s = .ok (Option.none, u) := by
  simp [BusOp.perform, h]

theorem BusOp.perform_write_error {a : Address} {v : Byte} {s : State} {e : Fault} (h : memWrite a v s = .error e) :
    (BusOp.write a v).perform s = .error e := by
  simp [BusOp.perform, h]

/-! ### The one bus operation of each tick -/

theorem State.busOp_idle {s : State} (htc : s.tc = 0) : s.busOp = .none := by
  simp [State.busOp, htc]

theorem State.busOp_fetch {s : State} (hf : s.Running) (htc : s.tc = 1) : s.busOp = .read s.pc := by
  simp [State.busOp, hf, htc]

theorem State.busOp_addrLow {s : State} {op : Operation} (hf : s.Running) (htc : s.tc = 2) (hc : s.cur = some op) :
    s.busOp = .read (lowByteAddress s.pc) := by
  simp [State.busOp, hf, htc, hc]

theorem State.busOp_addrHigh {s : State} {op : Operation} (hf : s.Running) (htc : s.tc = 3) (hc : s.cur = some op) :
    s.busOp = .read (highByteAddress s.pc) := by
  simp [State.busOp, hf, htc, hc]

theorem State.busOp_load {s : State} (hf : s.Running) (htc : s.tc = 4) (hc : s.cur = some .loadDirect) :
    s.busOp = .read s.index := by
  simp [State.busOp, hf, htc, hc]

theorem State.busOp_store {s : State} (hf : s.Running) (htc : s.tc = 4) (hc : s.cur = some .storeDirect) :
    s.busOp = .write s.index s.acc := by
  simp [State.busOp, hf, htc, hc]

theorem State.busOp_addRead {s : State} (hf : s.Running) (htc : s.tc = 4) (hc : s.cur = some .addDirect) :
    s.busOp = .read s.index := by
  simp [State.busOp, hf, htc, hc]

theorem State.busOp_addSum {s : State} (hf : s.Running) (htc : s.tc = 5) (hc : s.cur = some .addDirect) :
    s.busOp = .none := by
  simp [State.busOp, hf, htc, hc]

theorem State.busOp_branch {s : State} (hf : s.Running) (htc : s.tc = 4) (hc : s.cur = some .branchIfZeroSet) :
    s.busOp = .none := by
  simp [State.busOp, hf, htc, hc]

end Sys2Proof.Machine

namespace Sys2Proof.Laws

open Sys2Proof.Machine

/-! ## A step seen through its bus operation -/

/-- A step of a running machine and its one bus operation (R88, R136): where the operation fails the step latches its
error; where it succeeds RAM and OUT are the operation's, and only the fetch tick can still raise, `UnknownOpcode`. -/
theorem TickCase.through_busOp {s t : State} (h : TickCase s t) (hs : s.Running) :
    (∃ e, s.busOp.perform s = .error e ∧ t = s.raise e) ∨
      ∃ x u, s.busOp.perform s = .ok (x, u) ∧ t.ram = u.ram ∧ t.out = u.out ∧
        (t.fault = none ∨ (s.tc = 1 ∧ ∃ b, t = s.raise (.unknownOpcode s.pc b))) := by
  cases h with
  | halted hf => exact absurd hs hf
  | idle hf htc => rw [State.busOp_idle htc]; exact .inr ⟨_, _, BusOp.perform_none s, rfl, rfl, .inl hf⟩
  | fetchFails hf htc e hr =>
    rw [State.busOp_fetch hf htc]; exact .inl ⟨e, BusOp.perform_read_error hr, rfl⟩
  | unknownOpcode hf htc b hr _ =>
    rw [State.busOp_fetch hf htc]; exact .inr ⟨_, _, BusOp.perform_read_ok hr, rfl, rfl, .inr ⟨htc, b, rfl⟩⟩
  | fetch hf htc b op hr _ =>
    rw [State.busOp_fetch hf htc]; exact .inr ⟨_, _, BusOp.perform_read_ok hr, rfl, rfl, .inl hf⟩
  | addrLowFails hf htc op hc e hr =>
    rw [State.busOp_addrLow hf htc hc]; exact .inl ⟨e, BusOp.perform_read_error hr, rfl⟩
  | addrLow hf htc op hc lo hr =>
    rw [State.busOp_addrLow hf htc hc]; exact .inr ⟨_, _, BusOp.perform_read_ok hr, rfl, rfl, .inl hf⟩
  | addrHighFails hf htc op hc e hr =>
    rw [State.busOp_addrHigh hf htc hc]; exact .inl ⟨e, BusOp.perform_read_error hr, rfl⟩
  | addrHigh hf htc op hc hi hr =>
    rw [State.busOp_addrHigh hf htc hc]; exact .inr ⟨_, _, BusOp.perform_read_ok hr, rfl, rfl, .inl hf⟩
  | loadFails hf htc hc e hr =>
    rw [State.busOp_load hf htc hc]; exact .inl ⟨e, BusOp.perform_read_error hr, rfl⟩
  | load hf htc hc b hr =>
    rw [State.busOp_load hf htc hc]; exact .inr ⟨_, _, BusOp.perform_read_ok hr, rfl, rfl, .inl hf⟩
  | storeFails hf htc hc e hw =>
    rw [State.busOp_store hf htc hc]; exact .inl ⟨e, BusOp.perform_write_error hw, rfl⟩
  | store hf htc hc u hw =>
    rw [State.busOp_store hf htc hc]
    exact .inr ⟨_, u, BusOp.perform_write_ok hw, rfl, rfl, .inl ((memWrite_fault hw).trans hf)⟩
  | addReadFails hf htc hc e hr =>
    rw [State.busOp_addRead hf htc hc]; exact .inl ⟨e, BusOp.perform_read_error hr, rfl⟩
  | addRead hf htc hc b hr =>
    rw [State.busOp_addRead hf htc hc]; exact .inr ⟨_, _, BusOp.perform_read_ok hr, rfl, rfl, .inl hf⟩
  | addSum hf htc hc => rw [State.busOp_addSum hf htc hc]; exact .inr ⟨_, _, BusOp.perform_none s, rfl, rfl, .inl hf⟩
  | branch hf htc hc => rw [State.busOp_branch hf htc hc]; exact .inr ⟨_, _, BusOp.perform_none s, rfl, rfl, .inl hf⟩

/-! ## Own ticks (R85) -/

/-- From tick 4 on a step is the current instruction's own tick, with the address that `index` holds. -/
theorem step_own_tick {s : State} {op : Operation} (hf : s.Running) (h4 : 4 ≤ s.tc) (hc : s.cur = some op) :
    step s = exec (op.instr s.index) s := by
  have h0 : s.tc ≠ 0 := by omega
  have h1 : s.tc ≠ 1 := by omega
  have h2 : s.tc ≠ 2 := by omega
  have h3 : s.tc ≠ 3 := by omega
  simp [step, tick, executeTick, hf, h0, h1, h2, h3, hc]

/-- What memory holds where an instruction stands: the opcode of its operation and the two bytes of its operand. -/
theorem exists_bytes_of_holdsInstr {s : State} {i : Instr} (h : s.HoldsInstr i) :
    memRead s.pc s = .ok (opcodeOf i.operation) ∧
      ∃ lo hi, memRead (lowByteAddress s.pc) s = .ok lo ∧ memRead (highByteAddress s.pc) s = .ok hi ∧
        i.operand = directAddress lo hi := by
  obtain ⟨opcode, lo, hi, hopcode, hlo, hhi, hdecode⟩ := h
  obtain ⟨hop, hoperand, _⟩ := decode_three hdecode
  exact ⟨lookupOpcode_eq_some.1 hop ▸ hopcode, lo, hi, hlo, hhi, hoperand⟩

/-! ## Runs (R86) -/

theorem run_one (s : State) : run 1 s = step s := by
  rcases step_next_or_refused s with ⟨t, ht⟩ | ⟨_, _, hr⟩
  · rw [run_succ ht, run_zero, ht]
  · have hr' : Sys2Proof.core.step s = .refused (.noSuccessor s.tc s.cur) := hr
    simp only [run, Host.Core.run, hr']
    exact hr.symm

/-- The rest of a run goes on from the state that its first part leaves. -/
theorem run_add_of_next {a : Nat} {s u : State} (h : run a s = .next u) (b : Nat) : run (a + b) s = run b u := by
  induction a generalizing s with
  | zero => cases h; rw [Nat.zero_add]
  | succ a ih =>
    obtain ⟨v, hv, hrun⟩ := run_succ_next h
    rw [Nat.add_right_comm, run_succ (step_next_iff.2 hv)]
    exact ih hrun

/-- A run that answers a next state does so at each of its earlier ticks. -/
theorem exists_next_of_run_add {a b : Nat} {s t : State} (h : run (a + b) s = .next t) :
    ∃ u, run a s = .next u := by
  induction a generalizing s with
  | zero => exact ⟨s, run_zero s⟩
  | succ a ih =>
    rw [Nat.add_right_comm] at h
    obtain ⟨v, hv, hrun⟩ := run_succ_next h
    rw [run_succ (step_next_iff.2 hv)]
    exact ih hrun

/-- A halted machine stays as it is for any number of ticks (R136, R140). -/
theorem run_of_halted {s : State} (hf : s.fault ≠ none) (n : Nat) : run n s = .next s := by
  induction n with
  | zero => exact run_zero s
  | succ n ih => rw [run_succ (step_next_iff.2 (.halted hf)), ih]

end Sys2Proof.Laws

/-! ## The statements of 40_tick_engine.md -/

namespace Sys2Proof.Proofs

open Sys2Proof Sys2Proof.Machine Sys2Proof.Laws

/-- Settles O22: each clause splits a run after its first part. -/
theorem runsCompose : Obligations.RunsCompose := by
  refine ⟨fun s => ⟨run_zero s, run_one s⟩, fun n s t h => ?_, fun a b s t => ⟨fun h => ?_, ?_⟩,
    fun a b s t h hf => ?_⟩
  · rw [run_add_of_next h, run_one]
  · obtain ⟨u, hu⟩ := exists_next_of_run_add h
    exact ⟨u, hu, (run_add_of_next hu b).symm.trans h⟩
  · rintro ⟨u, hu, hrun⟩
    rw [run_add_of_next hu, hrun]
  · rw [run_add_of_next h, run_of_halted hf]

/-- Settles O28, from what a step can do by its bus operation's answer. -/
theorem eachTickActsThroughItsBusOperation : Obligations.EachTickActsThroughItsBusOperation := by
  intro s t hs h
  rcases (step_next_iff.1 h).through_busOp hs with ⟨e, hperform, ht⟩ | ⟨x, u, hperform, hframe⟩
  · rw [hperform]
    exact ht
  · rw [hperform]
    exact hframe

/-- Settles O17: by O23 a tick that does not count up completes. -/
theorem idleTickOnlyStartsTheNextInstruction : Obligations.IdleTickOnlyStartsTheNextInstruction := by
  refine ⟨fun s hf htc => ⟨?_, State.busOp_idle htc⟩, ⟨rfl, rfl⟩, fun s t hf h ht hcount => ?_⟩
  · rw [step_next_iff.2 (.idle hf htc), State.advance, htc]
  · rcases tickCounterCountsUpOrReturnsToZero s t hf h ht with hup | ⟨hzero, _⟩
    · exact absurd hup hcount
    · exact hzero

/-- Settles O18: the table's lookup of an operation's opcode answers that operation. -/
theorem fetchTickLatchesTheInstruction : Obligations.FetchTickLatchesTheInstruction := by
  intro s op hf htc hr
  rw [step_next_iff.2 (.fetch hf htc _ op hr (lookupOpcode_opcodeOf op))]
  simp [State.advance, htc]

/-- Settles O19, by the two address ticks' cases. -/
theorem addressTicksWriteOnlyIndex : Obligations.AddressTicksWriteOnlyIndex := by
  refine fun s op b hf hc => ⟨fun htc hr => ?_, fun htc hr => ?_⟩
  · rw [step_next_iff.2 (.addrLow hf htc op hc b hr)]
    simp [State.advance, htc, assembleLow]
  · rw [step_next_iff.2 (.addrHigh hf htc op hc b hr)]
    simp [State.advance, htc, assembleHigh]

/-- The idle, the fetch and the two address ticks bring an idle machine to the first own tick of the instruction its
memory holds at `pc` (R81 to R84). -/
theorem run_four_of_holdsInstr {s : State} {i : Instr} (hs : s.Idle) (hholds : s.HoldsInstr i) :
    run 4 s = .next (s.fetched i) := by
  obtain ⟨hf, htc⟩ := hs
  obtain ⟨hopcode, lo, hi, hlo, hhi, hoperand⟩ := exists_bytes_of_holdsInstr hholds
  obtain ⟨hidle, _⟩ := idleTickOnlyStartsTheNextInstruction.1 s hf htc
  have hfetch := fetchTickLatchesTheInstruction { s with tc := 1 } i.operation hf rfl
    ((memRead_congr rfl rfl _).trans hopcode)
  have hlow := (addressTicksWriteOnlyIndex { s with cur := some i.operation, tc := 2 } i.operation lo hf rfl).1 rfl
    ((memRead_congr rfl rfl _).trans hlo)
  have hhigh := (addressTicksWriteOnlyIndex
    { s with cur := some i.operation, index := assembleLow lo, tc := 3 } i.operation hi hf rfl).2 rfl
    ((memRead_congr rfl rfl _).trans hhi)
  calc run 4 s = run 3 { s with tc := 1 } := run_succ hidle
    _ = run 2 { s with cur := some i.operation, tc := 2 } := run_succ hfetch
    _ = run 1 { s with cur := some i.operation, index := assembleLow lo, tc := 3 } := run_succ hlow
    _ = .next { s with cur := some i.operation, index := assembleHigh (assembleLow lo) hi, tc := 4 } :=
      (run_one _).trans hhigh
    _ = .next (s.fetched i) := by rw [assembleHigh_assembleLow, ← hoperand, State.fetched]

/-- Settles O20: four ticks reach the instruction's own first tick, and the fifth is `exec`. -/
theorem stepRunsTheDecodedInstruction : Obligations.StepRunsTheDecodedInstruction := by
  refine ⟨fun s i hs hholds => ?_, fun s op hf h4 hc => step_own_tick hf h4 hc⟩
  obtain ⟨hf, _⟩ := id hs
  have hrun := run_four_of_holdsInstr hs hholds
  have hown : step (s.fetched i) = exec i (s.fetched i) := by
    simpa using step_own_tick (s := s.fetched i) hf le_rfl (State.fetched_cur i s)
  exact ⟨hrun, hown, by rw [run_add_of_next hrun 1, run_one, hown]⟩

end Sys2Proof.Proofs

/-! # Loads and stores: an instruction's own ticks, and what they leave unchanged (41_load_store.md) -/

/-! ## Accesses through the bus: what a write leaves unchanged, and which fail -/

namespace Sys2Proof.Machine

/-- A write to one address leaves every other index of the storage as it was (R38). -/
theorem memWrite_read_other {a : Address} {v : Byte} {s u : State} (h : memWrite a v s = .ok u) {i : Nat}
    (hi : i ≠ a.toNat) : u.ram.read i = s.ram.read i := by
  rcases memWrite_ok h with ⟨_, rfl⟩ | ⟨_, _, rfl⟩
  · rfl
  · exact Memory.read_write_other s.ram hi v

/-- A write below `OUT_BASE` does not reach the output device. -/
theorem memWrite_out_of_lt {a : Address} {v : Byte} {s u : State} (h : memWrite a v s = .ok u)
    (ha : a < s.outBase) : u.out = s.out := by
  rcases memWrite_ok h with ⟨hle, _⟩ | ⟨_, _, rfl⟩
  · exact absurd hle (BitVec.not_le.2 ha)
  · rfl

/-- A write from `OUT_BASE` on does not reach RAM. -/
theorem memWrite_ram_of_le {a : Address} {v : Byte} {s u : State} (h : memWrite a v s = .ok u)
    (ha : s.outBase ≤ a) : u.ram = s.ram := by
  rcases memWrite_ok h with ⟨_, rfl⟩ | ⟨hnot, _⟩
  · rfl
  · exact absurd ha hnot

@[simp] theorem memRead_complete (a p : Address) (s : State) : memRead a (s.complete p) = memRead a s :=
  memRead_congr rfl rfl a

@[simp] theorem memRead_fetched (a : Address) (i : Instr) (s : State) : memRead a (s.fetched i) = memRead a s :=
  memRead_congr rfl rfl a

/-- A read from `OUT_BASE` on fails by name (R40). -/
theorem memRead_output {a : Address} {s : State} (h : s.outBase ≤ a) :
    memRead a s = .error (.outputDeviceRead a) := by
  rw [memRead_eq, if_pos h]

/-- A read of an index below `OUT_BASE` that RAM does not list fails by name (R38). -/
theorem memRead_outOfBounds {a : Address} {s : State} (h : a < s.outBase) (hnone : s.ram.read a.toNat = none) :
    memRead a s = .error (.ramOutOfBounds a .read) := by
  rw [memRead_eq, if_neg (BitVec.not_le.2 h), hnone]

/-- A write to an index below `OUT_BASE` that RAM does not list fails by name (R38). -/
theorem memWrite_outOfBounds {a : Address} {s : State} (h : a < s.outBase) (hnone : s.ram.read a.toNat = none)
    (v : Byte) : memWrite a v s = .error (.ramOutOfBounds a .write) := by
  rw [memWrite_eq, if_neg (BitVec.not_le.2 h), hnone]

end Sys2Proof.Machine

/-! ## Everything an instruction's own tick can do -/

namespace Sys2Proof.Laws

open Sys2Proof.Machine

/-- The cases of an own tick that answers a next state. They ask nothing of the fault latch, `cur` or `index`, which
`exec` does not look at: the operand is the instruction's. -/
inductive OwnTickCase (s : State) : Instr → State → Prop
  | loadFails (a : Address) (htc : s.tc = 4) (e : Fault) (hr : memRead a s = .error e) :
      OwnTickCase s (.loadDirect a) (s.raise e)
  | load (a : Address) (htc : s.tc = 4) (b : Byte) (hr : memRead a s = .ok b) :
      OwnTickCase s (.loadDirect a) (({ s with acc := b } : State).complete (nextPc s.pc))
  | storeFails (a : Address) (htc : s.tc = 4) (e : Fault) (hw : memWrite a s.acc s = .error e) :
      OwnTickCase s (.storeDirect a) (s.raise e)
  | store (a : Address) (htc : s.tc = 4) (u : State) (hw : memWrite a s.acc s = .ok u) :
      OwnTickCase s (.storeDirect a) (u.complete (nextPc s.pc))
  | addReadFails (a : Address) (htc : s.tc = 4) (e : Fault) (hr : memRead a s = .error e) :
      OwnTickCase s (.addDirect a) (s.raise e)
  | addRead (a : Address) (htc : s.tc = 4) (b : Byte) (hr : memRead a s = .ok b) :
      OwnTickCase s (.addDirect a) ({ s with buffer := b } : State).advance
  | addSum (a : Address) (htc : s.tc = 5) :
      OwnTickCase s (.addDirect a) (({ s with acc := addBytes s.acc s.buffer } : State).complete (nextPc s.pc))
  | branch (a : Address) (htc : s.tc = 4) :
      OwnTickCase s (.branchIfZeroSet a) (s.complete (if accIsZero s.acc then a else nextPc s.pc))

/-- An own tick that answers a next state is one of the cases. -/
theorem exec_cases {i : Instr} {s t : State} (h : exec i s = .next t) : OwnTickCase s i t := by
  cases i with
  | loadDirect a =>
    simp only [exec, execLoadDirect] at h
    split at h
    · next htc =>
      rcases withRead_next h with ⟨b, hr, hgo⟩ | ⟨e, hr, rfl⟩
      · cases hgo; exact .load a htc b hr
      · exact .loadFails a htc e hr
    · cases h
  | storeDirect a =>
    simp only [exec, execStoreDirect] at h
    split at h
    · next htc =>
      rcases withWrite_next h with ⟨u, hw, hgo⟩ | ⟨e, hw, rfl⟩
      · cases hgo; exact .store a htc u hw
      · exact .storeFails a htc e hw
    · cases h
  | addDirect a =>
    simp only [exec, execAddDirect] at h
    split at h
    · next htc =>
      rcases withRead_next h with ⟨b, hr, hgo⟩ | ⟨e, hr, rfl⟩
      · cases hgo; exact .addRead a htc b hr
      · exact .addReadFails a htc e hr
    · split at h
      · next htc => cases h; exact .addSum a htc
      · cases h
  | branchIfZeroSet a =>
    simp only [exec, execBranchIfZeroSet] at h
    split at h
    · next htc => cases h; exact .branch a htc
    · cases h

/-- And conversely: each case is what the own tick does. -/
theorem exec_of_case {i : Instr} {s t : State} (h : OwnTickCase s i t) : exec i s = .next t := by
  cases h with
  | loadFails a htc e hr => simp [exec, execLoadDirect, htc, withRead_error hr]
  | load a htc b hr => simp [exec, execLoadDirect, htc, withRead_ok hr]
  | storeFails a htc e hw => simp [exec, execStoreDirect, htc, withWrite, hw]
  | store a htc u hw => simp [exec, execStoreDirect, htc, withWrite, hw]
  | addReadFails a htc e hr => simp [exec, execAddDirect, htc, withRead_error hr]
  | addRead a htc b hr => simp [exec, execAddDirect, htc, withRead_ok hr]
  | addSum a htc => simp [exec, execAddDirect, htc]
  | branch a htc => simp [exec, execBranchIfZeroSet, htc]

/-- An own tick answers a next state exactly in the cases of `OwnTickCase`. -/
theorem exec_next_iff {i : Instr} {s t : State} : exec i s = .next t ↔ OwnTickCase s i t :=
  ⟨exec_cases, exec_of_case⟩

/-! ### What an own tick leaves unchanged -/

/-- No own tick writes `index`, `cur` or `OUT_BASE`. -/
theorem OwnTickCase.index_cur_outBase_eq {i : Instr} {s t : State} (h : OwnTickCase s i t) :
    t.index = s.index ∧ t.cur = s.cur ∧ t.outBase = s.outBase := by
  cases h with
  | store a htc u hw =>
    rw [memWrite_frame hw]
    exact ⟨rfl, rfl, rfl⟩
  | _ => exact ⟨rfl, rfl, rfl⟩

/-- An own tick that sets the fault latch writes nothing else (R136). -/
theorem OwnTickCase.fault_eq_or_raise {i : Instr} {s t : State} (h : OwnTickCase s i t) :
    t.fault = s.fault ∨ ∃ e, t = s.raise e := by
  cases h with
  | loadFails a htc e hr => exact .inr ⟨e, rfl⟩
  | storeFails a htc e hw => exact .inr ⟨e, rfl⟩
  | addReadFails a htc e hr => exact .inr ⟨e, rfl⟩
  | store a htc u hw => exact .inl ((State.complete_fault _ u).trans (memWrite_fault hw))
  | _ => exact .inl rfl

/-- The only own ticks that write `acc` are LoadDirect's and AddDirect's tick 5 (R12). -/
theorem OwnTickCase.acc_eq {i : Instr} {s t : State} (h : OwnTickCase s i t) (hload : i.operation ≠ .loadDirect)
    (hsum : ¬ (i.operation = .addDirect ∧ s.tc = 5)) : t.acc = s.acc := by
  cases h with
  | load a htc b hr => exact absurd rfl hload
  | addSum a htc => exact absurd ⟨rfl, htc⟩ hsum
  | store a htc u hw => exact (State.complete_acc _ u).trans (memWrite_acc hw)
  | _ => rfl

/-- The only own tick that writes `buffer` is AddDirect's tick 4 (R14). -/
theorem OwnTickCase.buffer_eq {i : Instr} {s t : State} (h : OwnTickCase s i t)
    (hread : ¬ (i.operation = .addDirect ∧ s.tc = 4)) : t.buffer = s.buffer := by
  cases h with
  | addRead a htc b hr => exact absurd ⟨rfl, htc⟩ hread
  | store a htc u hw => exact (State.complete_buffer _ u).trans (memWrite_buffer hw)
  | _ => rfl

/-- An own tick of an instruction that is no store leaves RAM and OUT as they were. -/
theorem OwnTickCase.ram_out_eq {i : Instr} {s t : State} (h : OwnTickCase s i t) (hi : ∀ a, i ≠ .storeDirect a) :
    t.ram = s.ram ∧ t.out = s.out := by
  cases h with
  | storeFails a htc e hw => exact absurd rfl (hi a)
  | store a htc u hw => exact absurd rfl (hi a)
  | _ => exact ⟨rfl, rfl⟩

end Sys2Proof.Laws

/-! ## The statements of 41_load_store.md -/

namespace Sys2Proof.Proofs

open Sys2Proof Sys2Proof.Machine Sys2Proof.Laws

/-- Settles O35, from what each own tick leaves unchanged. -/
theorem nonStoringInstructionsFrame : Obligations.NonStoringInstructionsFrame := by
  intro i s t hi hexec
  have h := exec_next_iff.1 hexec
  obtain ⟨hram, hout⟩ := h.ram_out_eq hi
  obtain ⟨hindex, hcur, hbase⟩ := h.index_cur_outBase_eq
  refine ⟨memRead_congr hram hbase, hram, hout, hindex, hcur, hbase, h.fault_eq_or_raise, fun hacc => ?_,
    fun hbuffer => ?_⟩
  · rcases hacc with hop | ⟨hop, htc⟩
    · exact h.acc_eq (by simp [hop]) (by simp [hop])
    · exact h.acc_eq (by simp [hop]) (by simp [htc])
  · rcases hbuffer with hop | htc
    · exact h.buffer_eq fun ⟨hadd, _⟩ => hop hadd
    · exact h.buffer_eq (by simp [htc])

/-- Settles O36: the registers as for every own tick, and RAM and OUT by what a write through the bus leaves unchanged. -/
theorem storeDirectFrame : Obligations.StoreDirectFrame := by
  intro a s t hexec
  have h := exec_next_iff.1 hexec
  obtain ⟨hindex, hcur, hbase⟩ := h.index_cur_outBase_eq
  refine ⟨h.acc_eq nofun nofun, hindex, h.buffer_eq nofun, hcur, hbase, h.fault_eq_or_raise, ?_⟩
  cases h with
  | storeFails _ htc e hw =>
    exact ⟨fun _ _ => rfl, fun x _ => memRead_raise x e s, fun _ => rfl, fun _ => ⟨rfl, fun x => memRead_raise x e s⟩⟩
  | store _ htc u hw =>
    obtain ⟨_, hother, houtput⟩ := readAfterWriteSeesTheWrittenByte s u a s.acc hw
    simp only [State.complete_ram, State.complete_out, memRead_complete]
    exact ⟨fun _ hi => memWrite_read_other hw hi, hother, memWrite_out_of_lt hw,
      fun ha => ⟨memWrite_ram_of_le hw ha, houtput ha⟩⟩

/-- Settles O29: the completing case of LoadDirect. -/
theorem loadDirectLoadsTheByte : Obligations.LoadDirectLoadsTheByte :=
  fun _ a b htc hr => exec_next_iff.2 (.load a htc b hr)

/-- Settles O30: the completing case of StoreDirect, with each of the two answers of its write. -/
theorem storeDirectWritesTheAccumulator : Obligations.StoreDirectWritesTheAccumulator :=
  fun s a htc => ⟨fun hout => exec_next_iff.2 (.store a htc _ (memWrite_output hout s.acc)),
    fun _ hlt hb => exec_next_iff.2 (.store a htc _ (memWrite_ram (BitVec.not_le.2 hlt) hb s.acc))⟩

/-- Settles O33: the failing case of each instruction, with the access's error. -/
theorem dataAccessErrorsLatchAndWriteNothing : Obligations.DataAccessErrorsLatchAndWriteNothing := by
  refine fun s a htc => ⟨fun hout => ?_, fun hlt hnone => ?_⟩
  · have hr := memRead_output hout
    exact ⟨exec_next_iff.2 (.loadFails a htc _ hr), exec_next_iff.2 (.addReadFails a htc _ hr)⟩
  · have hr := memRead_outOfBounds hlt hnone
    exact ⟨exec_next_iff.2 (.loadFails a htc _ hr), exec_next_iff.2 (.addReadFails a htc _ hr),
      exec_next_iff.2 (.storeFails a htc _ (memWrite_outOfBounds hlt hnone s.acc))⟩

/-! ### Whole instructions from idle (R175) -/

/-- From idle the fifth tick is the instruction's own first tick. -/
theorem run_five_of_holdsInstr {s : State} {i : Instr} (hs : s.Idle) (hholds : s.HoldsInstr i) :
    run 5 s = exec i (s.fetched i) := by
  obtain ⟨_, _, hrun⟩ := stepRunsTheDecodedInstruction.1 s i hs hholds
  exact hrun

/-- Settles O37: the fifth tick is LoadDirect's own, and reads what the idle state reads. -/
theorem loadDirectFromIdle : Obligations.LoadDirectFromIdle := by
  intro s a b hs hholds hr
  obtain ⟨_, htc⟩ := id hs
  rw [run_five_of_holdsInstr hs hholds,
    loadDirectLoadsTheByte _ a b (State.fetched_tc _ s) ((memRead_fetched a _ s).trans hr)]
  simp [Instr.operation, Instr.operand, htc]

/-- Settles O38: the fifth tick is StoreDirect's own, and a readable address is one of the loaded RAM. -/
theorem storeDirectFromIdle : Obligations.StoreDirectFromIdle := by
  intro s a hs hholds
  obtain ⟨_, htc⟩ := id hs
  obtain ⟨hout, hram⟩ := storeDirectWritesTheAccumulator (s.fetched (.storeDirect a)) a (State.fetched_tc _ s)
  refine ⟨fun ha => ?_, fun b hr => ?_⟩
  · rw [run_five_of_holdsInstr hs hholds, hout ha]
    simp [Instr.operation, Instr.operand, htc]
  · obtain ⟨ha, hb⟩ := memRead_ok hr
    rw [run_five_of_holdsInstr hs hholds, hram b (BitVec.not_le.1 ha) hb]
    simp [Instr.operation, Instr.operand, htc]

end Sys2Proof.Proofs

/-! # AddDirect (42_add.md) -/

namespace Sys2Proof.Proofs

open Sys2Proof Sys2Proof.Machine Sys2Proof.Laws

/-- Settles O7: `addBytes` is the addition of bit vectors, in which 0xFF is the negative of 1. -/
theorem byteAdditionIsModulo256 : Obligations.ByteAdditionIsModulo256 := by
  intro x y
  have hff : (0xFF : Byte) = -1 := by decide
  refine ⟨BitVec.toNat_add x y, BitVec.add_comm x y, ?_⟩
  rw [addBytes, hff, BitVec.sub_eq_add_neg]

/-- Settles O31: the two completing cases of AddDirect, where the sum is taken from the state the read leaves. -/
theorem addDirectReadsThenAdds : Obligations.AddDirectReadsThenAdds := by
  have hsum : ∀ (s : State) (a : Address), s.tc = 5 →
      exec (.addDirect a) s = .next { s with acc := s.acc + s.buffer, pc := s.pc + 3, tc := 0 } :=
    fun _ a htc => exec_next_iff.2 (.addSum a htc)
  refine fun s a => ⟨fun b htc hr => ⟨?_, hsum { s with buffer := b, tc := 5 } a rfl⟩, hsum s a⟩
  rw [exec_next_iff.2 (.addRead a htc b hr), State.advance, htc]

/-- Settles O39: the fifth tick is AddDirect's own first tick, which reads what the idle state reads, and the sixth is
its own second. -/
theorem addDirectFromIdle : Obligations.AddDirectFromIdle := by
  intro s a b hs hholds hr
  obtain ⟨hf, htc⟩ := id hs
  obtain ⟨hread, hsum⟩ := (addDirectReadsThenAdds (s.fetched (.addDirect a)) a).1 b (State.fetched_tc _ s)
    ((memRead_fetched a _ s).trans hr)
  have hfive : run 5 s = .next { s with buffer := b, index := a, cur := some .addDirect, tc := 5 } :=
    (run_five_of_holdsInstr hs hholds).trans hread
  refine ⟨hfive, ?_⟩
  calc run 6 s
    _ = step { s with buffer := b, index := a, cur := some .addDirect, tc := 5 } :=
      (run_add_of_next hfive 1).trans (run_one _)
    _ = exec (.addDirect a) { s with buffer := b, index := a, cur := some .addDirect, tc := 5 } :=
      step_own_tick (op := .addDirect) hf (Nat.le_succ 4) rfl
    _ = .next { s with acc := s.acc + b, buffer := b, index := a, cur := some .addDirect, pc := s.pc + 3, tc := 0 } :=
      hsum
    _ = .next { s with acc := s.acc + b, buffer := b, index := a, cur := some .addDirect, pc := s.pc + 3 } := by
      rw [htc]

end Sys2Proof.Proofs

/-! # BranchIfZeroSet and the halt idiom (43_branch.md) -/

/-! ## The test of `acc` and the target -/

namespace Sys2Proof.Machine

theorem nextPc_eq (pc : Address) : nextPc pc = pc + 3 := rfl

theorem accIsZero_iff {acc : Byte} : accIsZero acc = true ↔ acc = 0x00 := by
  simp [accIsZero]

end Sys2Proof.Machine

/-! ## Everything a step in the halt idiom's loop does (R123) -/

namespace Sys2Proof.Laws

open Sys2Proof.Machine

/-- The state one tick further in the halt idiom's loop: the fetch latches the branch, and the two address ticks
assemble `pc` itself in `index`. -/
def haltLoopNext (s : State) : State :=
  { s with
    tc := (s.tc + 1) % 5
    cur := if s.tc = 0 then s.cur else some .branchIfZeroSet
    index := if s.tc = 2 then assembleLow (lowByte s.pc) else if s.tc = 3 then s.pc else s.index }

/-- From tick 2 on the current instruction of the loop is the branch that memory holds at `pc`. -/
theorem cur_of_inHaltLoop {s : State} (hs : s.InHaltLoop) (htc : 2 ≤ s.tc) : s.cur = some .branchIfZeroSet := by
  obtain ⟨_, _, ⟨hflight, _⟩, _, hholds⟩ := hs
  obtain ⟨hopcode, _⟩ := exists_bytes_of_holdsInstr hholds
  obtain ⟨b, hb, hcur, _⟩ := hflight htc
  cases hopcode.symm.trans hb
  exact hcur.trans (lookupOpcode_opcodeOf _)

/-- The loop has the five ticks of its branch. -/
theorem tc_of_inHaltLoop {s : State} (hs : s.InHaltLoop) : s.tc < 5 := by
  by_contra hge
  have hcur := cur_of_inHaltLoop hs (by omega)
  obtain ⟨_, hseq, _⟩ := hs
  rw [hcur] at hseq
  rcases legalSequencer_some.1 hseq with h4 | ⟨_, hadd⟩
  · omega
  · cases hadd

/-- The bytes of the branch in the loop: its operand is `pc`. -/
theorem bytes_of_inHaltLoop {s : State} (hs : s.InHaltLoop) :
    memRead s.pc s = .ok (opcodeOf .branchIfZeroSet) ∧ memRead (lowByteAddress s.pc) s = .ok (lowByte s.pc) ∧
      memRead (highByteAddress s.pc) s = .ok (highByte s.pc) := by
  obtain ⟨_, _, _, _, hholds⟩ := hs
  obtain ⟨hopcode, lo, hi, hlo, hhi, hoperand⟩ := exists_bytes_of_holdsInstr hholds
  have hpc : s.pc = directAddress lo hi := hoperand
  refine ⟨hopcode, hlo.trans ?_, hhi.trans ?_⟩
  · rw [hpc, lowByte_directAddress]
  · rw [hpc, highByte_directAddress]

/-- After tick 2 `index` holds the low byte of `pc`, and after tick 3 the whole of it. -/
theorem index_of_inHaltLoop {s : State} (hs : s.InHaltLoop) :
    (s.tc = 3 → s.index = assembleLow (lowByte s.pc)) ∧ (s.tc = 4 → s.index = s.pc) := by
  obtain ⟨_, hlow, hhigh⟩ := bytes_of_inHaltLoop hs
  obtain ⟨_, _, ⟨_, hflightLow, hflightBoth, _⟩, _⟩ := hs
  refine ⟨fun htc => ?_, fun htc => ?_⟩
  · obtain ⟨lo, hlo, hindex⟩ := hflightLow htc
    cases hlow.symm.trans hlo
    exact hindex
  · obtain ⟨lo, hi, hlo, hhi, hindex⟩ := hflightBoth (by omega)
    cases hlow.symm.trans hlo
    cases hhigh.symm.trans hhi
    rw [hindex, directAddress_lowByte_highByte]

/-- A step in the halt idiom's loop, by the tick it takes. -/
theorem tickCase_of_inHaltLoop {s : State} (hs : s.InHaltLoop) : TickCase s (haltLoopNext s) := by
  obtain ⟨hopcode, hlow, hhigh⟩ := bytes_of_inHaltLoop hs
  obtain ⟨hindexLow, hindex⟩ := index_of_inHaltLoop hs
  have hcur := cur_of_inHaltLoop hs
  have hlt := tc_of_inHaltLoop hs
  obtain ⟨hf, _, _, hacc, _⟩ := hs
  obtain htc | htc | htc | htc | htc : s.tc = 0 ∨ s.tc = 1 ∨ s.tc = 2 ∨ s.tc = 3 ∨ s.tc = 4 := by omega
  · have h := TickCase.idle hf htc
    simpa [haltLoopNext, State.advance, htc] using h
  · have h := TickCase.fetch hf htc _ _ hopcode (lookupOpcode_opcodeOf _)
    simpa [haltLoopNext, State.advance, htc] using h
  · have h := TickCase.addrLow hf htc _ (hcur (by omega)) _ hlow
    simpa [haltLoopNext, State.advance, htc, hcur] using h
  · have h := TickCase.addrHigh hf htc _ (hcur (by omega)) _ hhigh
    simpa [haltLoopNext, State.advance, htc, hcur, hindexLow, assembleHigh_assembleLow] using h
  · have h := TickCase.branch hf htc (hcur (by omega))
    simpa [haltLoopNext, State.complete, htc, hcur, hindex, accIsZero_iff, hacc] using h

/-- Every step keeps the loop: the sequencer's pair and the registers in flight as every step does, the rest because this
one changes neither memory nor `pc` nor `acc`. -/
theorem haltLoopNext_inHaltLoop {s : State} (hs : s.InHaltLoop) : (haltLoopNext s).InHaltLoop := by
  have h := tickCase_of_inHaltLoop hs
  have hread (a : Address) : memRead a (haltLoopNext s) = memRead a s := memRead_congr rfl rfl a
  obtain ⟨hf, hseq, hflight, hacc, opcode, lo, hi, hopcode, hlo, hhi, hdecode⟩ := hs
  exact ⟨hf, h.keeps_legalSequencer hseq, h.keeps_inFlight hflight, hacc, opcode, lo, hi, (hread _).trans hopcode,
    (hread _).trans hlo, (hread _).trans hhi, hdecode⟩

/-! ### Any number of ticks in the loop -/

/-- No number of ticks leaves the loop. -/
theorem run_of_inHaltLoop {s : State} (hs : s.InHaltLoop) (n : Nat) : run n s = .next (haltLoopNext^[n] s) := by
  induction n generalizing s with
  | zero => exact run_zero s
  | succ n ih =>
    rw [run_succ (step_next_iff.2 (tickCase_of_inHaltLoop hs)), ih (haltLoopNext_inHaltLoop hs),
      Function.iterate_succ_apply]

/-- From any point of the loop `tc` cycles, and only the sequencer and `index` change. -/
theorem haltLoopNext_iterate_frame {s : State} (htc : s.tc < 5) (n : Nat) :
    ∃ cur index, haltLoopNext^[n] s = { s with tc := (s.tc + n) % 5, cur := cur, index := index } := by
  induction n with
  | zero => exact ⟨s.cur, s.index, by simp [Nat.mod_eq_of_lt htc]⟩
  | succ n ih =>
    obtain ⟨cur, index, h⟩ := ih
    rw [Function.iterate_succ_apply', h, haltLoopNext, Nat.mod_add_mod, Nat.add_assoc]
    exact ⟨_, _, rfl⟩

/-- From the idle point of the loop, every later point in closed form. -/
theorem haltLoopNext_iterate_of_idle {s : State} (htc : s.tc = 0) (n : Nat) :
    haltLoopNext^[n] s = { s with
      tc := n % 5
      cur := if n < 2 then s.cur else some .branchIfZeroSet
      index := if n < 3 then s.index else if n % 5 = 3 then assembleLow (lowByte s.pc) else s.pc } := by
  induction n with
  | zero =>
    change s = { s with tc := 0 }
    rw [← htc]
  | succ n ih =>
    rw [Function.iterate_succ_apply', ih]
    simp only [haltLoopNext, State.mk.injEq, true_and, and_true]
    have hcount : (n % 5 + 1) % 5 = (n + 1) % 5 := Nat.mod_add_mod n 5 1
    exact ⟨by grind, hcount, by grind⟩

end Sys2Proof.Laws

/-! ## The statements of 43_branch.md -/

namespace Sys2Proof.Proofs

open Sys2Proof Sys2Proof.Machine Sys2Proof.Laws

/-- Settles O32: the one own tick of BranchIfZeroSet, by the two answers of its test. -/
theorem branchIfZeroSetWritesPc : Obligations.BranchIfZeroSetWritesPc := by
  intro s a htc
  have hown := exec_next_iff.2 (OwnTickCase.branch a htc)
  refine ⟨fun hacc => ?_, fun hacc => ?_⟩
  · rw [hown, if_pos (accIsZero_iff.2 hacc), State.complete]
  · rw [hown, if_neg (mt accIsZero_iff.1 hacc), State.complete, nextPc_eq]

/-- Settles O24: a case that halts has no running next state, and of the others only BranchIfZeroSet's own tick
completes with `pc` not past the instruction. -/
theorem pcChangesInTwoWaysOnly : Obligations.PcChangesInTwoWaysOnly := by
  intro s t hs h ht
  have hcase := step_next_iff.1 h
  cases id hcase with
  | halted hf => exact absurd hs hf
  | fetchFails | unknownOpcode | addrLowFails | addrHighFails | loadFails | storeFails | addReadFails =>
    exact absurd ht (State.not_running_raise _ _)
  | idle | fetch | addrLow | addrHigh | addRead => exact .inl ⟨Nat.succ_ne_zero _, rfl⟩
  | load _ _ hc | store _ _ hc | addSum _ _ hc => exact .inr ⟨rfl, by simp [hc, nextPc_eq]⟩
  | branch hf htc hc => exact .inr ⟨rfl, by simpa [hc] using hcase.pc_of_branch hf htc hc⟩

/-- Settles O40: the fifth tick is BranchIfZeroSet's own, which accesses no memory. -/
theorem branchIfZeroSetFromIdle : Obligations.BranchIfZeroSetFromIdle := by
  intro s a hs hholds
  obtain ⟨_, htc⟩ := id hs
  obtain ⟨htaken, hnotTaken⟩ := branchIfZeroSetWritesPc (s.fetched (.branchIfZeroSet a)) a (State.fetched_tc _ s)
  rw [run_five_of_holdsInstr hs hholds]
  by_cases hacc : s.acc = 0x00
  · rw [htaken hacc, if_pos hacc]
    simp [Instr.operation, Instr.operand, htc]
  · rw [hnotTaken hacc, if_neg hacc]
    simp [Instr.operation, Instr.operand, htc]

/-- Settles O56, from the one state that a step in the loop leads to. -/
theorem stepStaysInTheHaltLoop : Obligations.StepStaysInTheHaltLoop :=
  fun s hs => ⟨haltLoopNext s, step_next_iff.2 (tickCase_of_inHaltLoop hs), haltLoopNext_inHaltLoop hs, rfl, rfl⟩

/-- Settles O43: a run in the loop iterates its one next state, and an idle state that holds the branch to itself is a
point of the loop. -/
theorem selfBranchRepeatsForever : Obligations.SelfBranchRepeatsForever := by
  refine ⟨fun s n hs hacc hholds => ?_, fun s n hs => ?_⟩
  · obtain ⟨hf, htc⟩ := hs
    have htc1 : s.tc ≤ 1 := by omega
    have hloop : s.InHaltLoop :=
      ⟨hf, legalSequencer_of_le_one htc1 _, inFlight_of_tc_le_one htc1, hacc, hholds⟩
    rw [run_of_inHaltLoop hloop, haltLoopNext_iterate_of_idle htc]
    rfl
  · obtain ⟨cur, index, hframe⟩ := haltLoopNext_iterate_frame (tc_of_inHaltLoop hs) n
    refine ⟨_, run_of_inHaltLoop hs n, ?_⟩
    rw [hframe]
    exact ⟨rfl, rfl, rfl, rfl, rfl, rfl, rfl⟩

end Sys2Proof.Proofs

/-! # Fatal errors: what the failing tick writes, and what each error says of it (60_exceptions.md) -/

/-! ## Bus operations that fail -/

namespace Sys2Proof.Machine

/-- What a failed bus operation says: it is a read or a write that fails. -/
theorem BusOp.perform_error {op : BusOp} {s : State} {e : Fault} (h : op.perform s = .error e) :
    (∃ a, op = .read a ∧ memRead a s = .error e) ∨ ∃ a v, op = .write a v ∧ memWrite a v s = .error e := by
  cases op with
  | none => cases h
  | read a =>
    cases hr : memRead a s with
    | ok b => cases (BusOp.perform_read_ok hr).symm.trans h
    | error e' => cases (BusOp.perform_read_error hr).symm.trans h; exact .inl ⟨a, rfl, hr⟩
  | write a v =>
    cases hw : memWrite a v s with
    | ok u => cases (BusOp.perform_write_ok hw).symm.trans h
    | error e' => cases (BusOp.perform_write_error hw).symm.trans h; exact .inr ⟨a, v, rfl, hw⟩

/-- Only the ticks 1 to 4 issue a bus operation (R88). -/
theorem State.tc_of_busOp {s : State} (h : s.busOp ≠ .none) : 1 ≤ s.tc ∧ s.tc ≤ 4 := by
  have h0 : s.tc ≠ 0 := fun h0 => h (State.busOp_idle h0)
  refine ⟨Nat.one_le_iff_ne_zero.2 h0, not_lt.1 fun hlate => h ?_⟩
  have h1 : s.tc ≠ 1 := by omega
  have h2 : s.tc ≠ 2 := by omega
  have h3 : s.tc ≠ 3 := by omega
  have h4 : s.tc ≠ 4 := by omega
  cases hc : s.cur <;> simp [State.busOp, h1, h2, h3, h4, hc]

/-- The one write of a tick is StoreDirect's, and it writes `acc` (R88, R101). -/
theorem State.value_of_busOp_write {s : State} {a : Address} {v : Byte} (h : s.busOp = .write a v) : v = s.acc := by
  cases hc : s.cur with
  | none =>
    simp only [State.busOp, hc] at h
    split_ifs at h
  | some op =>
    simp only [State.busOp, hc] at h
    split_ifs at h
    cases op <;> cases h
    rfl

end Sys2Proof.Machine

/-! ## The tick that raises a fatal error -/

namespace Sys2Proof.Laws

open Sys2Proof.Machine

/-- A fetch tick that raises `UnknownOpcode` has read the byte, and the byte is no opcode (R131, R137): a byte that cannot
be read gives the bus's error, and an opcode raises nothing. -/
theorem TickCase.byte_of_unknownOpcode {s : State} {b : Byte} (h : TickCase s (s.raise (.unknownOpcode s.pc b)))
    (hs : s.Running) (htc : s.tc = 1) : memRead s.pc s = .ok b ∧ lookupOpcode b = none := by
  cases hr : memRead s.pc s with
  | error e =>
    have he : some (.unknownOpcode s.pc b) = some e := congrArg State.fault (h.unique (.fetchFails hs htc e hr))
    cases he
    rcases memRead_error hr with ⟨_, hbus⟩ | ⟨_, _, hbus⟩ <;> cases hbus
  | ok b' =>
    cases hb : lookupOpcode b' with
    | none =>
      have he : some (Fault.unknownOpcode s.pc b) = some (.unknownOpcode s.pc b') :=
        congrArg State.fault (h.unique (.unknownOpcode hs htc b' hr hb))
      cases he
      exact ⟨rfl, hb⟩
    | some op =>
      have hfault : some (Fault.unknownOpcode s.pc b) = s.fault :=
        congrArg State.fault (h.unique (.fetch hs htc b' op hr hb))
      cases hfault.trans hs

/-- A step that raises a fatal error writes the latch alone (R136), and the error is that of its bus operation or, at
the fetch tick, of the decode that follows it (R137). -/
theorem TickCase.fatal {s t : State} {e : Fault} (h : TickCase s t) (hs : s.Running) (ht : t.fault = some e) :
    t = s.raise e ∧
      (s.busOp.perform s = .error e ∨
        s.tc = 1 ∧ ∃ b, e = .unknownOpcode s.pc b ∧ memRead s.pc s = .ok b ∧ lookupOpcode b = none) := by
  rcases h.through_busOp hs with ⟨e', hperform, rfl⟩ | ⟨_, _, _, _, _, hnone | ⟨htc, b, rfl⟩⟩
  · cases ht
    exact ⟨rfl, .inl hperform⟩
  · cases hnone.symm.trans ht
  · cases ht
    exact ⟨rfl, .inr ⟨htc, b, rfl, h.byte_of_unknownOpcode hs htc⟩⟩

end Sys2Proof.Laws

/-! ## The statements of 60_exceptions.md -/

namespace Sys2Proof.Proofs

open Sys2Proof Sys2Proof.Machine Sys2Proof.Laws

/-- Settles O44, the first half of what a failing tick does. -/
theorem fatalTickWritesOnlyTheLatch : Obligations.FatalTickWritesOnlyTheLatch :=
  fun _ _ _ hs h ht => ((step_next_iff.1 h).fatal hs ht).1

/-- Settles O45, from the run of a halted machine. -/
theorem haltedMachineNeverChanges : Obligations.HaltedMachineNeverChanges :=
  fun n _ hf => run_of_halted hf n

/-- Settles O46: by where the error comes from, the fetch tick's decode, a read or a write, and by what a failed read or
write says of its address. -/
theorem fatalErrorsHaveTheirCause : Obligations.FatalErrorsHaveTheirCause := by
  intro s t e hs h ht
  obtain ⟨_, hbus | ⟨htc, b, rfl, hr, hb⟩⟩ := (step_next_iff.1 h).fatal hs ht
  · have hbusy : s.busOp ≠ .none := by
      intro hno
      rw [hno, BusOp.perform_none] at hbus
      cases hbus
    obtain ⟨hlow, hhigh⟩ := State.tc_of_busOp hbusy
    rcases BusOp.perform_error hbus with ⟨a, hop, hr⟩ | ⟨a, v, hop, hw⟩
    · rcases memRead_error hr with ⟨hout, rfl⟩ | ⟨hlt, hnone, rfl⟩
      · exact ⟨hlow, hhigh, hop, hout⟩
      · exact ⟨hlow, hhigh, hop, BitVec.not_le.1 hlt, hnone⟩
    · obtain ⟨hlt, hnone, rfl⟩ := memWrite_error hw
      obtain rfl := State.value_of_busOp_write hop
      exact ⟨hlow, hhigh, hop, BitVec.not_le.1 hlt, hnone⟩
  · exact ⟨by omega, by omega, htc, rfl, hr, hb⟩

end Sys2Proof.Proofs

/-! # Reset, the host and the hazards (70_reset_and_hazards.md) -/

/-! ## The bus: address 0, what a write leaves in `cur` and `index`, and an instruction's own bytes -/

namespace Sys2Proof

/-- A legal `OUT_BASE` leaves address 0 to RAM (R4). -/
theorem zero_lt_of_legalOutBase {b : Address} (h : legalOutBase b = true) : 0x0000 < b :=
  (BitVec.pos_iff_ne_zero b).2 (by simpa [legalOutBase] using h)

end Sys2Proof

namespace Sys2Proof.Machine

theorem memWrite_cur {a : Address} {v : Byte} {s u : State} (h : memWrite a v s = .ok u) : u.cur = s.cur := by
  rw [memWrite_frame h]

theorem memWrite_index {a : Address} {v : Byte} {s u : State} (h : memWrite a v s = .ok u) :
    u.index = s.index := by
  rw [memWrite_frame h]

/-- The bytes of an instruction can be read at its three addresses (R60). -/
theorem exists_memRead_of_holdsInstr {s : State} {i : Instr} {a : Address} (h : s.HoldsInstr i)
    (ha : a = s.pc ∨ a = s.pc + 1 ∨ a = s.pc + 2) : ∃ b, memRead a s = .ok b := by
  obtain ⟨opcode, lo, hi, hopcode, hlo, hhi, _⟩ := h
  rcases ha with rfl | rfl | rfl
  · exact ⟨opcode, hopcode⟩
  · exact ⟨lo, hlo⟩
  · exact ⟨hi, hhi⟩

end Sys2Proof.Machine

/-! ## Which steps write `cur` and `index`, and what a tick that does not complete leaves -/

namespace Sys2Proof.Laws

open Sys2Proof.Machine

/-- Only the fetch tick writes `cur` (R17). -/
theorem TickCase.cur_eq {s t : State} (h : TickCase s t) (htc : s.tc ≠ 1) : t.cur = s.cur := by
  cases h with
  | fetch _ h1 => exact absurd h1 htc
  | store _ _ _ u hw => exact (memWrite_cur hw :)
  | _ => rfl

/-- From tick 4 on no tick writes `index` (R13). -/
theorem TickCase.index_eq {s t : State} (h : TickCase s t) (htc : 4 ≤ s.tc) : t.index = s.index := by
  cases h with
  | addrLow _ h2 => omega
  | addrHigh _ h3 => omega
  | store _ _ _ u hw => exact (memWrite_index hw :)
  | _ => rfl

/-- `pc`, `acc`, RAM and OUT are written by the completing ticks alone (R172). -/
theorem TickCase.architectural_eq {s t : State} (h : TickCase s t) (ht : t.tc ≠ 0) :
    t.pc = s.pc ∧ t.acc = s.acc ∧ t.ram = s.ram ∧ t.out = s.out := by
  cases h with
  | load | store | addSum | branch => exact absurd rfl ht
  | _ => exact ⟨rfl, rfl, rfl, rfl⟩

/-- No tick leads to a state before the first tick (R165): it counts up, halts, or completes an instruction that `cur`
still names. -/
theorem TickCase.not_beforeFirstTick {s t : State} (h : TickCase s t) : ¬ t.BeforeFirstTick := by
  rintro ⟨htc, hcur, hfault⟩
  cases h with
  | halted hf => exact hf hfault
  | fetchFails | unknownOpcode | addrLowFails | addrHighFails | loadFails | storeFails | addReadFails => cases hfault
  | idle | fetch | addrLow | addrHigh | addRead => cases htc
  | load _ _ hc | addSum _ _ hc | branch _ _ hc => cases hc.symm.trans hcur
  | store _ _ hc _ hw => cases ((memWrite_cur hw).trans hc).symm.trans hcur

/-- No run of one tick or more leads there either. -/
theorem not_beforeFirstTick_of_run {n : Nat} {s t : State} (hn : 0 < n) (h : run n s = .next t) :
    ¬ t.BeforeFirstTick := by
  obtain ⟨m, rfl⟩ := Nat.exists_eq_succ_of_ne_zero hn.ne'
  obtain ⟨u, hu, hrun⟩ := run_succ_next h
  exact run_keeps (P := fun v => ¬ v.BeforeFirstTick) (fun _ _ _ hv => hv.not_beforeFirstTick)
    hu.not_beforeFirstTick hrun

/-! ## The ticks of one instruction (R175) -/

theorem ticksFromIdle_eq (op : Operation) : Config.ticksFromIdle op = if op = .addDirect then 6 else 5 := by
  cases op <;> rfl

/-- A run that succeeds does so in each of its parts, for a halted machine stays halted (R140). -/
theorem succeedsIn_add {a b : Nat} {s t : State} (h : SucceedsIn (a + b) s t) :
    ∃ v, SucceedsIn a s v ∧ SucceedsIn b v t := by
  obtain ⟨hrun, ht⟩ := h
  obtain ⟨v, hv⟩ := exists_next_of_run_add hrun
  have hrest : run b v = .next t := (run_add_of_next hv b).symm.trans hrun
  refine ⟨v, ⟨hv, ?_⟩, hrest, ht⟩
  by_contra hhalted
  cases (run_of_halted hhalted b).symm.trans hrest
  exact hhalted ht

/-- The last tick of a run that succeeds. -/
theorem succeedsIn_succ {n : Nat} {s t : State} (h : SucceedsIn (n + 1) s t) :
    ∃ v, SucceedsIn n s v ∧ TickCase v t ∧ t.Running := by
  obtain ⟨v, hv, hlast, ht⟩ := succeedsIn_add h
  exact ⟨v, hv, step_next_iff.1 ((run_one v).symm.trans hlast), ht⟩

end Sys2Proof.Laws

/-! ## The launch sequence (R162) -/

namespace Sys2Proof.Machine

/-- The presets `p` and after them `q`: where both set a register, `q`'s value stands (R165). -/
def Presets.andThen (p q : Presets) : Presets where
  pc := q.pc.or p.pc
  acc := q.acc.or p.acc
  index := q.index.or p.index
  buffer := q.buffer.or p.buffer

theorem State.preset_preset (p q : Presets) (s : State) : (s.preset p).preset q = s.preset (p.andThen q) := by
  simp [State.preset, Presets.andThen, Option.getD_or]

/-- A `load` outside its place in the launch sequence is refused by name (R163). -/
theorem hostLoad_refused {h : Session} (hs : ¬ h.StandsAt .constructed) (image : List Byte) :
    hostLoad image h = .refused (.hostAction .load) :=
  if_neg hs

/-- A preset outside its place in the launch sequence is refused by name (R165). -/
theorem hostPreset_refused {h : Session} (hs : ¬ h.StandsAt .loaded) (p : Presets) :
    hostPreset p h = .refused (.hostAction .preset) :=
  if_neg hs

theorem Session.not_standsAt_of_phase_ne {phase : LaunchPhase} {h : Session} (hne : h.phase ≠ phase) :
    ¬ h.StandsAt phase :=
  fun ⟨hphase, _⟩ => hne hphase

@[simp] theorem Session.construct_phase (outBase : Address) : (Session.construct outBase).phase = .constructed := rfl

theorem Session.construct_standsAt (outBase : Address) : (Session.construct outBase).StandsAt .constructed :=
  ⟨rfl, rfl, rfl, rfl⟩

/-- A launch state stands before the first tick, whatever the image and the presets. -/
theorem launch_beforeFirstTick (outBase : Address) (image : List Byte) (p : Presets) :
    (launch outBase image p).BeforeFirstTick :=
  ⟨rfl, rfl, rfl⟩

/-- A list of calls goes on after its first one exactly where that one is admitted. -/
theorem hostCalls_cons_next {c : HostCall} {calls : List HostCall} {h k : Session} :
    hostCalls (c :: calls) h = .next k ↔ ∃ m, hostCall c h = .next m ∧ hostCalls calls m = .next k := by
  cases hc : hostCall c h <;> simp [hostCalls, hc]

/-- The launch sequence up to the presets makes the launch state, from which further calls go on (R162, R168). -/
theorem hostCalls_launch {calls : List HostCall} {k : Session} (outBase : Address) (image : List Byte) (p : Presets)
    (h : hostCalls calls ⟨.loaded, launch outBase image p⟩ = .next k) :
    hostCalls (.load image :: .preset p :: calls) (.construct outBase) = .next k :=
  hostCalls_cons_next.2 ⟨_, hostLoad_next.2 ⟨Session.construct_standsAt outBase, rfl⟩,
    hostCalls_cons_next.2 ⟨_, hostPreset_next.2 ⟨⟨rfl, launch_beforeFirstTick outBase image {}⟩, rfl⟩, h⟩⟩

/-- The session's machine is a launch state run for some ticks, and its phase tells how far the launch sequence has come. -/
def Session.IsLaunchedRun (outBase : Address) (h : Session) : Prop :=
  ∃ (image : List Byte) (p : Presets) (n : Nat),
    run n (launch outBase image p) = .next h.machine ∧ (h.phase = .started ↔ 0 < n) ∧
    (h.phase = .constructed → image = [] ∧ p = {})

/-- Before the first tick the machine is the launch state itself. -/
theorem Session.IsLaunchedRun.machine_eq {outBase : Address} {h : Session} (hh : h.IsLaunchedRun outBase)
    (hphase : h.phase ≠ .started) :
    ∃ image p, h.machine = launch outBase image p ∧ (h.phase = .constructed → image = [] ∧ p = {}) := by
  obtain ⟨image, p, n, hrun, hstarted, hempty⟩ := hh
  obtain rfl : n = 0 := Nat.eq_zero_of_not_pos (mt hstarted.2 hphase)
  exact ⟨image, p, (Host.Outcome.next.inj hrun).symm, hempty⟩

/-- A loaded launch state is a launched run, of no tick. -/
theorem Session.isLaunchedRun_of_loaded (outBase : Address) (image : List Byte) (p : Presets) :
    (⟨.loaded, launch outBase image p⟩ : Session).IsLaunchedRun outBase :=
  ⟨image, p, 0, rfl, by simp, nofun⟩

theorem Session.construct_isLaunchedRun (outBase : Address) : (Session.construct outBase).IsLaunchedRun outBase :=
  ⟨[], {}, 0, rfl, by simp [Session.construct], fun _ => ⟨rfl, rfl⟩⟩

end Sys2Proof.Machine

namespace Sys2Proof.Laws

open Sys2Proof.Machine

/-- A run adds its ticks, and the first of them starts the machine (R164). -/
theorem isLaunchedRun_of_hostRun {outBase : Address} {h k : Session} {m : Nat} (hh : h.IsLaunchedRun outBase)
    (hrun : hostRun m h = .next k) : k.IsLaunchedRun outBase := by
  obtain ⟨image, p, n, hn, hstarted, hempty⟩ := hh
  obtain ⟨t, ht, rfl⟩ := hostRun_next.1 hrun
  refine ⟨image, p, n + m, (run_add_of_next hn m).trans ht, ?_⟩
  by_cases hm : m = 0
  · simpa [hm] using ⟨hstarted, hempty⟩
  · simp [hm, Nat.pos_of_ne_zero hm]

/-- Every admitted call keeps the session's machine a launch state run for some ticks: a `load` replaces the empty image
and presets add to those made before. -/
theorem isLaunchedRun_of_hostCall {outBase : Address} {c : HostCall} {h k : Session} (hh : h.IsLaunchedRun outBase)
    (hcall : hostCall c h = .next k) : k.IsLaunchedRun outBase := by
  cases c with
  | load image =>
    obtain ⟨⟨hphase, _⟩, rfl⟩ := hostLoad_next.1 hcall
    obtain ⟨_, _, hmachine, hempty⟩ := hh.machine_eq (by simp [hphase])
    obtain ⟨rfl, rfl⟩ := hempty hphase
    rw [hmachine]
    exact Session.isLaunchedRun_of_loaded outBase image {}
  | preset q =>
    obtain ⟨⟨hphase, _⟩, rfl⟩ := hostPreset_next.1 hcall
    obtain ⟨image, p, hmachine, _⟩ := hh.machine_eq (by simp [hphase])
    rw [hmachine, launch, State.preset_preset]
    exact Session.isLaunchedRun_of_loaded outBase image (p.andThen q)
  | run m => exact isLaunchedRun_of_hostRun hh hcall

/-- So does every list of admitted calls. -/
theorem isLaunchedRun_of_hostCalls {outBase : Address} {calls : List HostCall} {h k : Session}
    (hh : h.IsLaunchedRun outBase) (hcalls : hostCalls calls h = .next k) : k.IsLaunchedRun outBase := by
  induction calls generalizing h with
  | nil => cases hcalls; exact hh
  | cons c rest ih =>
    obtain ⟨m, hcall, hrest⟩ := hostCalls_cons_next.1 hcalls
    exact ih (isLaunchedRun_of_hostCall hh hcall) hrest

end Sys2Proof.Laws

/-! ## The statements of 70_reset_and_hazards.md -/

namespace Sys2Proof.Proofs

open Sys2Proof Sys2Proof.Machine Sys2Proof.Laws

/-- Settles O25, by the cases of a step. -/
theorem architecturalStateWaitsForCompletion : Obligations.ArchitecturalStateWaitsForCompletion :=
  fun _ _ h ht => (step_next_iff.1 h).architectural_eq ht

/-! ### Tick counts (R175) -/

/-- Before an instruction's last tick no tick returns `tc` to 0: only the last one does (R16). -/
theorem counts_up_before_last_tick {s t : State} {op : Operation} (h : TickCase s t) (hs : s.Running) (ht : t.Running)
    (htc : s.tc + 1 < Config.ticksFromIdle op) (hc : 2 ≤ s.tc → s.cur = some op) : t.tc = s.tc + 1 := by
  rw [ticksFromIdle_eq] at htc
  rcases tickCounterCountsUpOrReturnsToZero s t hs (step_next_iff.2 h) ht with hup | ⟨_, ⟨h4, hne⟩ | ⟨h5, _⟩⟩
  · exact hup
  · have hop : op ≠ .addDirect := by simpa [hc (by omega)] using hne
    rw [if_neg hop] at htc
    omega
  · split at htc <;> omega

/-- Inside an instruction every tick counts up, `pc` and `acc` wait for its completion, and `cur` names it from its
fetch tick on. -/
theorem midway_of_succeedsIn {s u v : State} {op : Operation} {k : Nat} (hs : s.Idle) (hu : SucceedsIn 2 s u)
    (hop : u.cur = some op) (hk : k < Config.ticksFromIdle op) (hv : SucceedsIn k s v) :
    v.tc = k ∧ v.pc = s.pc ∧ v.acc = s.acc ∧ (2 ≤ k → v.cur = some op) := by
  induction k generalizing v with
  | zero =>
    obtain ⟨hrun, _⟩ := hv
    obtain ⟨_, htc⟩ := hs
    cases hrun
    exact ⟨htc, rfl, rfl, nofun⟩
  | succ k ih =>
    obtain ⟨w, hw, hcase, hrunning⟩ := succeedsIn_succ hv
    obtain ⟨rfl, hpc, hacc, hcur⟩ := ih (by omega) hw
    obtain ⟨_, hwf⟩ := hw
    have hup : v.tc = w.tc + 1 := counts_up_before_last_tick hcase hwf hrunning hk hcur
    obtain ⟨hpc', hacc', _, _⟩ := hcase.architectural_eq (by omega)
    refine ⟨hup, hpc'.trans hpc, hacc'.trans hacc, fun h2 => ?_⟩
    by_cases hfetch : w.tc = 1
    · rw [hfetch] at hv
      obtain ⟨hrun, _⟩ := hu
      obtain ⟨hrun', _⟩ := hv
      cases hrun.symm.trans hrun'
      exact hop
    · exact (hcase.cur_eq hfetch).trans (hcur (by omega))

/-- On an instruction's last tick R23 leaves `tc` nothing to count up to, so the tick completes. -/
theorem completes_on_last_tick {s t : State} {op : Operation} (h : TickCase s t) (hs : s.Running) (ht : t.Running)
    (htc : s.tc + 1 = Config.ticksFromIdle op) (hc : s.cur = some op) :
    t.tc = 0 ∧ t.pc = if op = .branchIfZeroSet ∧ s.acc = 0x00 then t.index else s.pc + 3 := by
  rw [ticksFromIdle_eq] at htc
  have h4 : 4 ≤ s.tc := by split at htc <;> omega
  have hlegal : legalSequencer s.tc s.cur = true := by
    rw [hc, legalSequencer_some]
    split at htc
    · next hadd => exact .inr ⟨by omega, hadd⟩
    · exact .inl (by omega)
  have hstep := step_next_iff.2 h
  have hzero : t.tc = 0 := by
    rcases tickCounterCountsUpOrReturnsToZero s t hs hstep ht with hup | ⟨hzero, _⟩
    · have hafter := h.keeps_legalSequencer hlegal
      rw [h.cur_eq (by omega), hc, hup, legalSequencer_some] at hafter
      rcases hafter with hle | ⟨h5, hadd⟩
      · omega
      · rw [if_pos hadd] at htc
        omega
    · exact hzero
  rcases pcChangesInTwoWaysOnly s t hs hstep ht with ⟨hne, _⟩ | ⟨_, hpc⟩
  · exact absurd hzero hne
  · simpa [hc, h.index_eq h4] using And.intro hzero hpc

/-- Settles O21: a run that succeeds has succeeded at each of its ticks, the ticks before the last count up and leave
`pc` and `acc`, and the last one completes. -/
theorem tickCountsFromIdleAreExact : Obligations.TickCountsFromIdleAreExact := by
  intro s u t op n hs hu hop hn ht
  rw [← ticksFromIdle_eq] at hn
  obtain ⟨m, rfl⟩ : ∃ m, n = m + 1 := ⟨n - 1, by rw [hn]; cases op <;> rfl⟩
  obtain ⟨w, hw, hcase, hrunning⟩ := succeedsIn_succ ht
  obtain ⟨htc, hpc, hacc, hcur⟩ := midway_of_succeedsIn hs hu hop (by omega) hw
  have hm : 2 ≤ m := by
    rw [ticksFromIdle_eq] at hn
    split at hn <;> omega
  obtain ⟨hzero, htarget⟩ := completes_on_last_tick hcase hw.2 hrunning (by omega) (hcur hm)
  refine ⟨hzero, by rw [htarget, hpc, hacc], fun k _ hk => ?_⟩
  obtain ⟨v, hv, _⟩ := succeedsIn_add (a := k) (b := m + 1 - k) (by rwa [Nat.add_sub_cancel' hk.le])
  obtain ⟨hvtc, hvpc, _, _⟩ := midway_of_succeedsIn hs hu hop (by omega) hv
  exact ⟨v, hv, hvtc, hvpc⟩

/-! ### Self-modifying code (R170, R171) -/

/-- Settles O42: each of the instruction's own bytes can be read, so the store goes to RAM. -/
theorem storeOverItselfStillCompletes : Obligations.StoreOverItselfStillCompletes := by
  intro s a hs hholds ha
  obtain ⟨b, hr⟩ := exists_memRead_of_holdsInstr hholds ha
  obtain ⟨hram, hb⟩ := memRead_ok hr
  exact ⟨_, (storeDirectFromIdle s a hs hholds).2 b hr, hs, rfl, rfl, rfl,
    memRead_of_ram hram (Memory.read_write_same hb s.acc)⟩

/-- The idle and the fetch tick from a state whose byte at `pc` is an opcode (R81, R82). -/
theorem run_two_of_opcode {s : State} {op : Operation} (hs : s.Idle) (hopcode : memRead s.pc s = .ok (opcodeOf op)) :
    run 2 s = .next { s with cur := some op, tc := 2 } := by
  obtain ⟨hf, htc⟩ := hs
  obtain ⟨hidle, _⟩ := idleTickOnlyStartsTheNextInstruction.1 s hf htc
  exact (run_succ hidle).trans ((run_one _).trans
    (fetchTickLatchesTheInstruction { s with tc := 1 } op hf rfl ((memRead_congr rfl rfl _).trans hopcode)))

/-- StoreDirect's own tick to a readable address other than the next instruction's first, and the idle and fetch ticks
after it: the next instruction is latched, and memory differs in the stored byte alone. -/
theorem run_three_of_store {s : State} {op : Operation} {old : Byte} (hf : s.Running) (htc : s.tc = 4)
    (hc : s.cur = some .storeDirect) (hold : memRead s.index s = .ok old)
    (hopcode : memRead (s.pc + 3) s = .ok (opcodeOf op)) (hne : s.pc + 3 ≠ s.index) :
    ∃ t, run 3 s = .next t ∧ t.Running ∧ t.pc = s.pc + 3 ∧ t.cur = some op ∧ t.tc = 2 ∧
      memRead s.index t = .ok s.acc ∧ ∀ x, x ≠ s.index → memRead x t = memRead x s := by
  obtain ⟨hram, hb⟩ := memRead_ok hold
  obtain ⟨u, hw⟩ : ∃ u, memWrite s.index s.acc s = .ok u := ⟨_, memWrite_ram hram hb s.acc⟩
  obtain ⟨hsame, hother, _⟩ := readAfterWriteSeesTheWrittenByte s u s.index s.acc hw
  have hfu : u.Running := (memWrite_fault hw).trans hf
  have hnext := run_two_of_opcode (s := u.complete (s.pc + 3)) ⟨hfu, rfl⟩
    ((memRead_complete _ _ u).trans ((hother _ hne).trans hopcode))
  exact ⟨_, (run_succ (step_next_iff.2 (.store hf htc hc u hw))).trans hnext, hfu, rfl, rfl, rfl,
    hsame (BitVec.not_le.1 hram), hother⟩

/-- Settles O41: after the store's tick and the next instruction's first two, its address ticks read the stored byte and
the other operand byte as it was. -/
theorem nextInstructionSeesTheStoredOperand : Obligations.NextInstructionSeesTheStoredOperand := by
  refine fun s op old hf htc hc hold hopcode => ⟨fun hindex => ?_, fun lo hindex hlo => ?_⟩
  · obtain ⟨t, hrun, htf, htpc, htcur, httc, hstored, _⟩ :=
      run_three_of_store hf htc hc hold hopcode (by rw [hindex]; bv_omega)
    have hlow := (addressTicksWriteOnlyIndex t op s.acc htf htcur).1 httc (by rw [htpc, ← hindex, hstored])
    exact ⟨_, (run_add_of_next hrun 1).trans ((run_one t).trans hlow), htpc, htcur, rfl, rfl⟩
  · obtain ⟨t, hrun, htf, htpc, htcur, httc, hstored, hother⟩ :=
      run_three_of_store hf htc hc hold hopcode (by rw [hindex]; bv_omega)
    have hboth := addressTicksAssembleLittleEndian.1 t op lo s.acc htf httc htcur
      (by rw [htpc, hother _ (by rw [hindex]; bv_omega), hlo]) (by rw [htpc, ← hindex, hstored])
    exact ⟨_, (run_add_of_next hrun 2).trans hboth, htpc, htcur, rfl, rfl⟩

/-! ### The launch sequence -/

/-- Settles O57: a run of one tick or more does not lead to a state before the first tick. -/
theorem hostWritesEndWithTheFirstTick : Obligations.HostWritesEndWithTheFirstTick := by
  refine ⟨fun _ _ _ _ => hostPreset_next.2 ⟨⟨rfl, launch_beforeFirstTick _ _ _⟩, rfl⟩,
    fun n s t _ image p hn h => ?_⟩
  have hlate := not_beforeFirstTick_of_run hn h
  exact ⟨hostLoad_refused (fun hs => hlate hs.2) image, hostPreset_refused (fun hs => hlate hs.2) p⟩

/-- Settles O58: the launched runs start at construction and every admitted call keeps them. -/
theorem admittedCallsReachLaunchedRuns : Obligations.AdmittedCallsReachLaunchedRuns :=
  fun outBase _ _ hcalls => isLaunchedRun_of_hostCalls (Session.construct_isLaunchedRun outBase) hcalls

/-- Settles O54: the idle tick, then a fetch at address 0, which is RAM's and which the empty RAM does not list. -/
theorem emptyMachineFailsAtItsFirstFetch : Obligations.EmptyMachineFailsAtItsFirstFetch := by
  intro outBase hlegal
  have hidle : run 1 (launch outBase [] {}) = .next { launch outBase [] {} with tc := 1 } :=
    (run_one _).trans (step_next_iff.2 (.idle rfl rfl))
  have hread : memRead 0x0000 { launch outBase [] {} with tc := 1 } = .error (.ramOutOfBounds 0x0000 .read) :=
    memRead_outOfBounds (zero_lt_of_legalOutBase hlegal) rfl
  exact ⟨hidle, (run_add_of_next hidle 1).trans ((run_one _).trans (step_next_iff.2 (.fetchFails rfl rfl _ hread)))⟩

/-- Settles O55: what an admitted action asks of the session, and that a `load` and a preset both leave it loaded. -/
theorem hostActionsFollowTheLaunchSequence : Obligations.HostActionsFollowTheLaunchSequence := by
  refine ⟨fun outBase image p n t => ⟨hostCalls_launch outBase image p rfl, fun hrun => ?_⟩,
    fun image h hs => hostLoad_refused hs image, fun p h hs => hostPreset_refused hs p,
    fun outBase image again p h k => ⟨hostPreset_refused (Session.not_standsAt_of_phase_ne (by simp)) p,
      fun hload => ?_, fun hpreset => ?_⟩⟩
  · exact hostCalls_launch outBase image p (hostCalls_cons_next.2 ⟨_, hostRun_next.2 ⟨t, hrun, rfl⟩, rfl⟩)
  · obtain ⟨_, rfl⟩ := hostLoad_next.1 hload
    exact hostLoad_refused (Session.not_standsAt_of_phase_ne (by simp)) again
  · obtain ⟨_, rfl⟩ := hostPreset_next.1 hpreset
    exact hostLoad_refused (Session.not_standsAt_of_phase_ne (by simp)) again

end Sys2Proof.Proofs
